-- ==== Sys2Proof/Word.lean ====
section
/-! DEFINITION. The word types of the soft-PWM engine: what the spec numbers in bits and nothing else
(00_scope.md R7, R8; 20_memory.md R28, R36; 30_encoding.md R44). All values are unsigned (R8). -/

namespace Sys2Proof

/-- One byte: a port register (R14), a line-buffer position (R21), a byte of a sweep (R61). -/
abbrev Byte := BitVec 8

/-- One duty entry: `W` = 16 bits, unsigned (10_state.md R11). -/
abbrev DutyValue := BitVec 16

/-- The level counter: 8 bits (10_state.md R16). -/
abbrev Level := BitVec 8

/-- The 4-bit destination index of a duty write (30_encoding.md R48). -/
abbrev DutyIndex := BitVec 4

/-- A position of the line buffer, 0 to 49: no other position exists (10_state.md R21, 20_memory.md R28). -/
abbrev LinePos := Fin 50

/-- A bit position of a port register, 0 to 7 (20_memory.md R28). -/
abbrev BitPos := Fin 8

/-- `zext_16` of an 8-bit level (00_scope.md R8). -/
def zext16 (v : Level) : DutyValue := v.setWidth 16

end Sys2Proof
end

