-- ==== Sys2Proof/Config.lean ====
section
/-! DEFINITION. The implementation parameters of 00_scope.md R7: the fixed counts as constants, and the tunable
parameters of R7 and 92_eei_decisions.md as one record, `Config`, with `Config.hardware` the value this hardware
takes. State carries one such record, which no step changes (notes/assumptions/1.md). -/

namespace Sys2Proof

/-- `PRST_ORDER`, the order of the two port resets of a cycle (decision D4). -/
inductive PrstOrder where
  | dThenB
  | bThenD
  deriving DecidableEq, Repr

/-- `HOST_WRITE_WINDOW`, when a duty write may land (20_memory.md R42, decision D7). -/
inductive HostWriteWindow where
  | serviceOnly
  | anyStep
  deriving DecidableEq, Repr

/-- `FIELD_PREFIX`, the meaning of a field outside the defined subset of format T (30_encoding.md R55, D14). -/
inductive FieldPrefix where
  | refuse
  | strict
  deriving DecidableEq, Repr

/-- `EMPTY_FIELD_POLICY`, the meaning of a field of no characters (decision D12). -/
inductive EmptyFieldPolicy where
  | zero
  | skip
  deriving DecidableEq, Repr

/-- `FIELD_OVERFLOW`, the meaning of a digit run whose value exceeds 65535 (decision D13). -/
inductive FieldOverflow where
  | saturate
  | refuse
  deriving DecidableEq, Repr

/-- `LINE_OVERFLOW_POLICY`, what happens to a sweep of more than 49 bytes (40_update_frontend.md R64, D10). -/
inductive LineOverflowPolicy where
  | truncate
  | rejectLine
  deriving DecidableEq, Repr

/-- The tunable parameters of one implementation (00_scope.md R7). They are configuration and not state (10_state.md
R23, R25). -/
structure Config where
  /-- `K`, render cycles per burst (10_state.md R23, decision D21). -/
  K : Nat
  /-- `ALL_HIGH_PD`, the byte the per-cycle reset writes to `PD` (decision D3). -/
  allHighPd : Byte
  /-- `ALL_HIGH_PB`, the byte the per-cycle reset writes to `PB` (decision D3). -/
  allHighPb : Byte
  prstOrder : PrstOrder
  hostWriteWindow : HostWriteWindow
  fieldPrefix : FieldPrefix
  emptyField : EmptyFieldPolicy
  fieldOverflow : FieldOverflow
  lineOverflow : LineOverflowPolicy
  deriving DecidableEq, Repr

/-- The values this hardware takes (00_scope.md R7). -/
def Config.hardware : Config where
  K := 3
  allHighPd := 0xFF#8
  allHighPb := 0xFF#8
  prstOrder := .dThenB
  hostWriteWindow := .serviceOnly
  fieldPrefix := .refuse
  emptyField := .zero
  fieldOverflow := .saturate
  lineOverflow := .truncate

/-- A legal configuration: `K >= 1` (`K = 0` is not legal, 41_cycle_controller.md R89) and every mapped bit of the two
all-high bytes is 1 (the lines of `PD[7:2]` and `PB[5:0]` are set high, R80, R81; D3 leaves only the unmapped bits
open). -/
def Config.wf (c : Config) : Bool :=
  decide (1 ≤ c.K) && c.allHighPd &&& 0xFC#8 == 0xFC#8 && c.allHighPb &&& 0x3F#8 == 0x3F#8

/-- The configurations that agree with this hardware in what the engine does with the ports: both all-high bytes 0xFF
(20_memory.md R31), `PD` reset before `PB` (41_cycle_controller.md R78), `K >= 1`. The policies of the front-end and the
write window are left open. -/
def Config.standardEngine (c : Config) : Bool :=
  decide (1 ≤ c.K) && c.allHighPd == 0xFF#8 && c.allHighPb == 0xFF#8 && c.prstOrder == .dThenB

/-- `N_ENTRIES`, entries of the duty array. -/
abbrev Config.nEntries : Nat := 14
/-- `FIRST_CH`, the lowest active channel index. -/
abbrev Config.firstCh : Nat := 2
/-- `LAST_CH`, the highest active channel index. -/
abbrev Config.lastCh : Nat := 13
/-- `N_CH`, active channels. -/
abbrev Config.nCh : Nat := 12
/-- `LEVELS`, comparison levels per render cycle. -/
abbrev Config.levels : Nat := 256
/-- `LINE_CAP`, characters of the line buffer, terminator included. -/
abbrev Config.lineCap : Nat := 50
/-- `MAX_LINE`, the most content bytes one update can hold. -/
abbrev Config.maxLine : Nat := 49
/-- `MAX_FIELDS`, the most fields of one update that are written. -/
abbrev Config.maxFields : Nat := 12
/-- The greatest value of a duty entry, `2^W - 1` (decision D13). -/
abbrev Config.maxDuty : Nat := 65535

end Sys2Proof
end

