-- ==== Sys2Proof/Syntax.lean ====
section
/-! DEFINITION. The operations of the block as data: one constructor of `Instr` per row of spec/opcode_table.json
(30_encoding.md R44, R48 to R50, R45), with the names of channels and ports they use. -/

namespace Sys2Proof

/-- A channel: an index in [2,14) naming one duty entry and one output line; 0 and 1 are not channels (00_scope.md R9).
It is also the type of the channel counter `i`, which never holds 0, 1, 14 or 15 (10_state.md R17); other values are
unrepresentable, as 41_cycle_controller.md R90 allows. -/
inductive Channel where
  | c2
  | c3
  | c4
  | c5
  | c6
  | c7
  | c8
  | c9
  | c10
  | c11
  | c12
  | c13
  deriving DecidableEq, Repr

/-- The channel's index, 2 to 13. -/
def Channel.num : Channel → Nat
  | .c2 => 2
  | .c3 => 3
  | .c4 => 4
  | .c5 => 5
  | .c6 => 6
  | .c7 => 7
  | .c8 => 8
  | .c9 => 9
  | .c10 => 10
  | .c11 => 11
  | .c12 => 12
  | .c13 => 13

theorem Channel.num_ge (c : Channel) : 2 ≤ c.num := by cases c <;> decide

theorem Channel.num_lt (c : Channel) : c.num < 14 := by cases c <;> decide

/-- A port select: `PD` is select 0, `PB` is select 1 (20_memory.md R28). -/
inductive PortSel where
  | pd
  | pb
  deriving DecidableEq, Repr

/-- The four formats (30_encoding.md R44). -/
inductive Format where
  | T
  | H
  | M
  | P
  deriving DecidableEq, Repr

/-- The operations. -/
inductive Instr where
  /-- `SVC`, the service window (R79). -/
  | svc
  /-- `POLL`, the command reader (R61). -/
  | poll
  /-- `UPDATE`, the command parser (R67). -/
  | update
  /-- `LBCLR`, clear the line buffer (R72). -/
  | lbclr
  /-- `RSTD`, set `PD` all-high (R80). -/
  | rstd
  /-- `RSTB`, set `PB` all-high (R81). -/
  | rstb
  /-- `CMP 2` (R94). -/
  | cmp2
  /-- `CMP 3` (R94). -/
  | cmp3
  /-- `CMP 4` (R94). -/
  | cmp4
  /-- `CMP 5` (R94). -/
  | cmp5
  /-- `CMP 6` (R94). -/
  | cmp6
  /-- `CMP 7` (R94). -/
  | cmp7
  /-- `CMP 8` (R94). -/
  | cmp8
  /-- `CMP 9` (R94). -/
  | cmp9
  /-- `CMP 10` (R94). -/
  | cmp10
  /-- `CMP 11` (R94). -/
  | cmp11
  /-- `CMP 12` (R94). -/
  | cmp12
  /-- `CMP 13` (R94). -/
  | cmp13
  /-- `DWR idx, val`, one duty write (R70). -/
  | dwr (idx : DutyIndex) (val : DutyValue)
  /-- `PSET PD` (R101). -/
  | psetPd
  /-- `PSET PB` (R101). -/
  | psetPb
  /-- `PCLR PD,2` (R102). -/
  | pclrPd2
  /-- `PCLR PD,3` (R102). -/
  | pclrPd3
  /-- `PCLR PD,4` (R102). -/
  | pclrPd4
  /-- `PCLR PD,5` (R102). -/
  | pclrPd5
  /-- `PCLR PD,6` (R102). -/
  | pclrPd6
  /-- `PCLR PD,7` (R102). -/
  | pclrPd7
  /-- `PCLR PB,0` (R102). -/
  | pclrPb0
  /-- `PCLR PB,1` (R102). -/
  | pclrPb1
  /-- `PCLR PB,2` (R102). -/
  | pclrPb2
  /-- `PCLR PB,3` (R102). -/
  | pclrPb3
  /-- `PCLR PB,4` (R102). -/
  | pclrPb4
  /-- `PCLR PB,5` (R102). -/
  | pclrPb5
  /-- One format T line, the byte string of one update (R45). -/
  | line (bytes : List Byte)
  deriving DecidableEq, Repr

/-- The format an operation is written in. -/
def Instr.format : Instr → Format
  | .svc | .poll | .update | .lbclr | .rstd | .rstb => .M
  | .cmp2 | .cmp3 | .cmp4 | .cmp5 | .cmp6 | .cmp7 | .cmp8 | .cmp9 | .cmp10 | .cmp11 | .cmp12 | .cmp13 => .M
  | .dwr _ _ => .H
  | .psetPd | .psetPb => .P
  | .pclrPd2 | .pclrPd3 | .pclrPd4 | .pclrPd5 | .pclrPd6 | .pclrPd7 => .P
  | .pclrPb0 | .pclrPb1 | .pclrPb2 | .pclrPb3 | .pclrPb4 | .pclrPb5 => .P
  | .line _ => .T

/-- The operation `CMP c`. -/
def cmpOf : Channel → Instr
  | .c2 => .cmp2
  | .c3 => .cmp3
  | .c4 => .cmp4
  | .c5 => .cmp5
  | .c6 => .cmp6
  | .c7 => .cmp7
  | .c8 => .cmp8
  | .c9 => .cmp9
  | .c10 => .cmp10
  | .c11 => .cmp11
  | .c12 => .cmp12
  | .c13 => .cmp13

/-- The operation `PSET p`. -/
def psetOf : PortSel → Instr
  | .pd => .psetPd
  | .pb => .psetPb

end Sys2Proof
end

