-- ==== Sys2Proof/WellFormed.lean ====
section
/-! DEFINITION. Which terms of `Instr` are words of the four formats. Every operand of formats H, M and P is legal by its
type (30_encoding.md R48, R49, R50: no `val` is illegal and the four out-of-range `idx` are legal words without effect);
the one check left is the length of a format T line, 1 to 49 bytes (R44). A byte string of another length is still a legal sweep with a meaning
(40_update_frontend.md R77), so the decoder and `exec` take it (notes/assumptions/20.md). -/

namespace Sys2Proof

/-- A format T byte string has 1 to 49 bytes (30_encoding.md R44). -/
def lineLengthOk (bytes : List Byte) : Bool :=
  decide (1 ≤ bytes.length) && decide (bytes.length ≤ Config.maxLine)

/-- The words of the four formats. -/
def Instr.wellFormed : Instr → Bool
  | .line bytes => lineLengthOk bytes
  | .dwr _ _ => true
  | .svc | .poll | .update | .lbclr | .rstd | .rstb => true
  | .cmp2 | .cmp3 | .cmp4 | .cmp5 | .cmp6 | .cmp7 | .cmp8 | .cmp9 | .cmp10 | .cmp11 | .cmp12 | .cmp13 => true
  | .psetPd | .psetPb => true
  | .pclrPd2 | .pclrPd3 | .pclrPd4 | .pclrPd5 | .pclrPd6 | .pclrPd7 => true
  | .pclrPb0 | .pclrPb1 | .pclrPb2 | .pclrPb3 | .pclrPb4 | .pclrPb5 => true

end Sys2Proof
end

