-- ==== Sys2Proof/Decode.lean ====
section
/-! DEFINITION. The four interfaces' words, the decoder and the encoder (30_encoding.md R44 to R56).
"The four formats are told apart by the interface they travel on" (R51): a word comes with its interface, as a
`Frame`. -/

namespace Sys2Proof

/-- A word on one of the four interfaces (30_encoding.md R51): `t` from the transport, `h` on the duty write port, `m` at
the sequencer, `p` at the port registers. -/
inductive Frame where
  | t (bytes : List Byte)
  | h (w : BitVec 20)
  | m (w : BitVec 8)
  | p (w : BitVec 5)
  deriving DecidableEq, Repr

/-- The interface a word travels on. -/
def Frame.format : Frame → Format
  | .t _ => .T
  | .h _ => .H
  | .m _ => .M
  | .p _ => .P

/-- Why a word is no operation. -/
inductive DecodeError where
  /-- A reserved word of format M (R52). -/
  | reservedMicroop
  /-- A reserved word of format P (R53). -/
  | reservedPortop
  deriving DecidableEq, Repr

/-- Format M: group in bits 7:4, argument in bits 3:0 (R49); every other word is reserved (R52). -/
def decodeM (w : BitVec 8) : Except DecodeError Instr :=
  match (w.extractLsb' 4 4).toNat, (w.extractLsb' 0 4).toNat with
  | 0, 0 => .ok .svc
  | 0, 1 => .ok .poll
  | 0, 2 => .ok .update
  | 0, 3 => .ok .lbclr
  | 1, 0 => .ok .rstd
  | 1, 1 => .ok .rstb
  | 2, 2 => .ok .cmp2
  | 2, 3 => .ok .cmp3
  | 2, 4 => .ok .cmp4
  | 2, 5 => .ok .cmp5
  | 2, 6 => .ok .cmp6
  | 2, 7 => .ok .cmp7
  | 2, 8 => .ok .cmp8
  | 2, 9 => .ok .cmp9
  | 2, 10 => .ok .cmp10
  | 2, 11 => .ok .cmp11
  | 2, 12 => .ok .cmp12
  | 2, 13 => .ok .cmp13
  | _, _ => .error .reservedMicroop

/-- Format P: `op` in bit 4, `p` in bit 3, `b` in bits 2:0 (R50); every other word is reserved (R53). -/
def decodeP (w : BitVec 5) : Except DecodeError Instr :=
  match (w.extractLsb' 4 1).toNat, (w.extractLsb' 3 1).toNat, (w.extractLsb' 0 3).toNat with
  | 0, 0, 0 => .ok .psetPd
  | 0, 1, 0 => .ok .psetPb
  | 1, 0, 2 => .ok .pclrPd2
  | 1, 0, 3 => .ok .pclrPd3
  | 1, 0, 4 => .ok .pclrPd4
  | 1, 0, 5 => .ok .pclrPd5
  | 1, 0, 6 => .ok .pclrPd6
  | 1, 0, 7 => .ok .pclrPd7
  | 1, 1, 0 => .ok .pclrPb0
  | 1, 1, 1 => .ok .pclrPb1
  | 1, 1, 2 => .ok .pclrPb2
  | 1, 1, 3 => .ok .pclrPb3
  | 1, 1, 4 => .ok .pclrPb4
  | 1, 1, 5 => .ok .pclrPb5
  | _, _, _ => .error .reservedPortop

/-- Format H: `idx` in bits 19:16, `val` in bits 15:0 (R48); no word is reserved (R54). -/
def decodeH (w : BitVec 20) : Except DecodeError Instr :=
  .ok (.dwr (w.extractLsb' 16 4) (w.extractLsb' 0 16))

/-- The transport's interface: every byte string of any length is a legal sweep (40_update_frontend.md R77), so every one is
read. A string of no byte or of more than 49 is no format T word of R44 and has its meaning through R62 and R64
(notes/assumptions/20.md). -/
def decodeT (bytes : List Byte) : Except DecodeError Instr := .ok (.line bytes)

/-- The decoder (R51): total, and every word that is no operation is refused by name. -/
def decode : Frame → Except DecodeError Instr
  | .t bytes => decodeT bytes
  | .h w => decodeH w
  | .m w => decodeM w
  | .p w => decodeP w

/-- A format M word from its two fields (R49). -/
def wordM (grp arg : BitVec 4) : Frame := .m (grp ++ arg)

/-- A format P word from its three fields (R50). -/
def wordP (op p : BitVec 1) (b : BitVec 3) : Frame := .p (op ++ p ++ b)

/-- The encoder, from the tables of R48, R49 and R50. -/
def encode : Instr → Frame
  | .svc => wordM 0 0
  | .poll => wordM 0 1
  | .update => wordM 0 2
  | .lbclr => wordM 0 3
  | .rstd => wordM 1 0
  | .rstb => wordM 1 1
  | .cmp2 => wordM 2 2
  | .cmp3 => wordM 2 3
  | .cmp4 => wordM 2 4
  | .cmp5 => wordM 2 5
  | .cmp6 => wordM 2 6
  | .cmp7 => wordM 2 7
  | .cmp8 => wordM 2 8
  | .cmp9 => wordM 2 9
  | .cmp10 => wordM 2 10
  | .cmp11 => wordM 2 11
  | .cmp12 => wordM 2 12
  | .cmp13 => wordM 2 13
  | .dwr idx val => .h (idx ++ val)
  | .psetPd => wordP 0 0 0
  | .psetPb => wordP 0 1 0
  | .pclrPd2 => wordP 1 0 2
  | .pclrPd3 => wordP 1 0 3
  | .pclrPd4 => wordP 1 0 4
  | .pclrPd5 => wordP 1 0 5
  | .pclrPd6 => wordP 1 0 6
  | .pclrPd7 => wordP 1 0 7
  | .pclrPb0 => wordP 1 1 0
  | .pclrPb1 => wordP 1 1 1
  | .pclrPb2 => wordP 1 1 2
  | .pclrPb3 => wordP 1 1 3
  | .pclrPb4 => wordP 1 1 4
  | .pclrPb5 => wordP 1 1 5
  | .line bytes => .t bytes

/-- The `n` bytes of a number, byte 0 its low eight bits. -/
def bytesOfNat : Nat → Nat → List Byte
  | 0, _ => []
  | n + 1, w => BitVec.ofNat 8 w :: bytesOfNat n (w / 256)

/-- The word of a one-byte row. A byte that is a format M word is that; a byte that is none, fits five bits and is a
format P word is read as the P row, since a five-bit row fills one whole byte (notes/assumptions/8.md). -/
def byteFrame (w : Nat) : Frame :=
  match decodeM (BitVec.ofNat 8 w) with
  | .ok _ => .m (BitVec.ofNat 8 w)
  | .error _ =>
    match decodeP (BitVec.ofNat 5 w) with
    | .ok _ => if w < 32 then .p (BitVec.ofNat 5 w) else .m (BitVec.ofNat 8 w)
    | .error _ => .m (BitVec.ofNat 8 w)

/-- The interface word that a row of `nbits` bits with bits `w` is, rows being told apart by their width
(notes/assumptions/8.md): 5 bits P, 8 bits M (or P, `byteFrame`), 20 or 24 bits H, any other whole number of bytes up to
49 a format T line. -/
def tableFrame (nbits w : Nat) : Option Frame :=
  if 2 ^ nbits ≤ w then none
  else if nbits = 5 then some (.p (BitVec.ofNat 5 w))
  else if nbits = 8 then some (byteFrame w)
  else if nbits = 20 ∨ nbits = 24 then (if w < 2 ^ 20 then some (.h (BitVec.ofNat 20 w)) else none)
  else if nbits % 8 = 0 ∧ 16 ≤ nbits ∧ nbits ≤ 392 then some (.t (bytesOfNat (nbits / 8) w))
  else none

/-- The operation the decoder reads from a row's word. -/
def decodeTableWord (nbits w : Nat) : Option Instr :=
  match tableFrame nbits w with
  | none => none
  | some f =>
    match decode f with
    | .ok i => some i
    | .error _ => none

end Sys2Proof
end

