-- ==== Sys2Proof/Machine/State.lean ====
section
/-! DEFINITION. The state of the machine as plain data, its reset, and the reasons a step can stop
(10_state.md R10 to R27; 60_exceptions.md R108, R124). -/

namespace Sys2Proof.Machine

/-- The line space (20_memory.md R28), the one storage of the block addressed in bytes: a list of position and byte in
canonical form (`Memory.wf`). A position that is not listed reads as 0x00, the reset contents of the line buffer
(10_state.md R26). -/
abbrev Memory := List Host.Cell

/-- What a position that is not listed reads as: the null sentinel 0x00 (10_state.md R21, R26). -/
def Memory.unlisted : Byte := 0x00#8

/-- The canonical form: positions strictly rising and below 50, no listed byte equal to what an unlisted position reads
as. -/
def Memory.wf (m : Memory) : Bool :=
  decide (m.Pairwise fun a b => a.1 < b.1) && m.all fun c => decide (c.1 < 50) && c.2 != Memory.unlisted

/-- The four kinds of step (10_state.md R15). -/
inductive Phase where
  | service
  | rstd
  | rstb
  | cmp
  deriving DecidableEq, Repr

/-- The state (10_state.md R10), the configuration it runs under, and three fields of the model that hold the inputs of
the outside world. -/
structure State where
  /-- The configuration (00_scope.md R7): no step changes it. MODEL'S FIELD, notes/assumptions/1.md. -/
  cfg : Config
  /-- `Duty[0..13]` (R11); entries 0 and 1 are reserved (R12). -/
  duty : Vector DutyValue 14
  /-- Port register `PD` (R14). -/
  pd : Byte
  /-- Port register `PB` (R14). -/
  pb : Byte
  /-- The sequencer's phase (R15). -/
  phase : Phase
  /-- The repeat counter (R18). -/
  z : Nat
  /-- The level counter (R16). -/
  x : Level
  /-- The channel counter (R17). -/
  i : Channel
  /-- The line buffer `LB[0..49]` (R21). -/
  lb : Memory
  /-- The reader's fill pointer (R21). -/
  wp : LinePos
  /-- The transport: the sweeps that the coming `POLL`s take, the next one first; `[]` as an entry, or no entry, is "no
  byte available" (40_update_frontend.md R75, decision D26). MODEL'S FIELD, notes/assumptions/3.md. -/
  sweeps : List (List Byte)
  /-- The duty write port: the format H words still to land, each with the number of engine steps to complete, after the
  word before it has arrived, until it arrives (20_memory.md R42, 41_cycle_controller.md R79). MODEL'S FIELD,
  notes/assumptions/4.md. -/
  writes : List (Nat × BitVec 20)
  /-- Words put directly on the interfaces of 30_encoding.md R51, run before the sequencer's own next step. Empty in
  every run of the hardware. MODEL'S FIELD, notes/assumptions/5.md. -/
  presented : List Frame
  deriving DecidableEq, Repr

/-- The faults of the machine: none. "No operation of the block raises an exception, in any state, on any input"
(60_exceptions.md R108) and "A model has no fault state for the engine" (R124). -/
inductive Fault where
  deriving DecidableEq, Repr

/-- The verdicts of the model on inputs the spec gives no meaning (60_exceptions.md R124, decision D19). -/
inductive Refusal where
  /-- Raised by an arm of `exec` whose operation has no meaning yet; no arm raises it. Safe. -/
  | notModelled (mnemonic : String)
  /-- Raised by `UPDATE`, and by `SVC` and a line that run it, under `FIELD_PREFIX = refuse`, when one of the first
  twelve fields is outside the defined subset (40_update_frontend.md R67, R77). Safe. -/
  | fieldPrefix
  /-- Raised by `UPDATE`, and by `SVC` and a line that run it, under the option `FIELD_OVERFLOW = refuse` only, when one
  of the first twelve fields exceeds 65535 (decision D13). Safe. -/
  | fieldOverflow
  /-- Raised by a step that is given a reserved word of format M (30_encoding.md R52); the sequencer never issues one.
  Safe. -/
  | reservedMicroop
  /-- Raised by a step that is given a reserved word of format P (30_encoding.md R53); the engine never emits one.
  Safe. -/
  | reservedPortop
  deriving DecidableEq, Repr

/-- The state at power-up (10_state.md R26), for a configuration, the unspecified port contents, and the inputs the
outside world will give: duty array zero, position (SERVICE, 0, 0, 2), line buffer 0x00, fill pointer 0. -/
def State.powerUp (cfg : Config) (pd pb : Byte) (sweeps : List (List Byte)) (writes : List (Nat × BitVec 20)) :
    State where
  cfg := cfg
  duty := Vector.replicate 14 0#16
  pd := pd
  pb := pb
  phase := .service
  z := 0
  x := 0#8
  i := .c2
  lb := []
  wp := 0
  sweeps := sweeps
  writes := writes
  presented := []

/-- The machine right after reset: this hardware's configuration, no input waiting, and 0x00 in the two port registers,
whose reset value the spec leaves unspecified (DESIGN CHOICE, notes/assumptions/2.md). -/
def State.reset : State := State.powerUp Config.hardware 0x00#8 0x00#8 [] []

end Sys2Proof.Machine
end

