-- ==== Sys2Proof/Machine/Ops.lean ====
section
/-! DEFINITION. The named operations over the storage spaces (20_memory.md): line space, duty space, port space, the port
mapper (42_comparator_toggle.md R93) and the output lines (10_state.md R19).

TAKING AN EXCEPTION, and returning from one: the block has neither. "There is no trap entry: no state is saved anywhere,
no mode changes, no vector table or handler address exists" (60_exceptions.md R116), "There is no trap return and no
nesting, there being no trap" (R117), so no shared operation for them stands here. -/

namespace Sys2Proof.Machine

/-! ## Line space -/

/-- The byte at a position of the line buffer. -/
def Memory.read : Memory → LinePos → Byte
  | [], _ => Memory.unlisted
  | (k, v) :: r, a => if k = a.val then v else Memory.read r a

/-- Lists a byte at a position, in order, in a list that does not list that position. -/
def Memory.insertCell : Memory → LinePos → Byte → Memory
  | [], a, b => [(a.val, b)]
  | (k, v) :: r, a, b => if k < a.val then (k, v) :: Memory.insertCell r a b else (a.val, b) :: (k, v) :: r

/-- Stores a byte at a position, keeping the canonical form: 0x00 is stored by taking the entry out. -/
def Memory.write (m : Memory) (a : LinePos) (b : Byte) : Memory :=
  if b = Memory.unlisted then m.filter fun c => c.1 != a.val
  else Memory.insertCell (m.filter fun c => c.1 != a.val) a b

/-- The fifty bytes of the buffer, position 0 first. -/
def Memory.bytes (m : Memory) : List Byte := (List.finRange 50).map m.read

/-- The line in the buffer: the bytes before the first 0x00 (40_update_frontend.md R67). Position 49 holds 0x00 in every
state that a run reaches, so a first 0x00 exists (R63); in a state without one the line is all fifty bytes
(notes/assumptions/9.md). -/
def Memory.line (m : Memory) : List Byte := m.bytes.takeWhile fun b => b != 0x00#8

/-! ## Duty space -/

/-- `DutyRead(c)` (20_memory.md R29). -/
def dutyRead (s : State) (c : Channel) : DutyValue := s.duty[c.num]'(c.num_lt)

/-- `DutyWrite(c, v)` (20_memory.md R30): the whole entry, no other entry. -/
def dutyWrite (s : State) (c : Channel) (v : DutyValue) : State :=
  { s with duty := s.duty.set c.num v c.num_lt }

/-- The channel a 4-bit index names: 2 to 13; none for 0, 1, 14, 15 (40_update_frontend.md R70, R71). -/
def channelOfIndex (idx : DutyIndex) : Option Channel :=
  match idx.toNat with
  | 2 => some .c2
  | 3 => some .c3
  | 4 => some .c4
  | 5 => some .c5
  | 6 => some .c6
  | 7 => some .c7
  | 8 => some .c8
  | 9 => some .c9
  | 10 => some .c10
  | 11 => some .c11
  | 12 => some .c12
  | 13 => some .c13
  | _ => none

/-! ## Port space -/

/-- `Port[p]` (00_scope.md R8). -/
def State.port (s : State) : PortSel → Byte
  | .pd => s.pd
  | .pb => s.pb

/-- `Port[p] <- v`. -/
def State.setPort (s : State) (p : PortSel) (v : Byte) : State :=
  match p with
  | .pd => { s with pd := v }
  | .pb => { s with pb := v }

/-- `ALL_HIGH` of a port (00_scope.md R7, decision D3). -/
def allHigh (cfg : Config) : PortSel → Byte
  | .pd => cfg.allHighPd
  | .pb => cfg.allHighPb

/-- `PortSetAll(p)` (20_memory.md R31): one write of the whole byte that does not depend on the old value. -/
def portSetAll (s : State) (p : PortSel) : State := s.setPort p (allHigh s.cfg p)

/-- `PortClrBit(p, b)` (20_memory.md R32): the bit becomes 0, the other seven stay. -/
def portClrBit (s : State) (p : PortSel) (b : BitPos) : State :=
  s.setPort p (s.port p &&& ~~~(1#8 <<< b.val))

/-- The port mapper `map(c)`, the table of 42_comparator_toggle.md R93. -/
def portMap : Channel → PortSel × BitPos
  | .c2 => (.pd, 2)
  | .c3 => (.pd, 3)
  | .c4 => (.pd, 4)
  | .c5 => (.pd, 5)
  | .c6 => (.pd, 6)
  | .c7 => (.pd, 7)
  | .c8 => (.pb, 0)
  | .c9 => (.pb, 1)
  | .c10 => (.pb, 2)
  | .c11 => (.pb, 3)
  | .c12 => (.pb, 4)
  | .c13 => (.pb, 5)

/-- `PCLR map(c)`, the port operation a `CMP c` may emit (30_encoding.md R50). -/
def pclrOf : Channel → Instr
  | .c2 => .pclrPd2
  | .c3 => .pclrPd3
  | .c4 => .pclrPd4
  | .c5 => .pclrPd5
  | .c6 => .pclrPd6
  | .c7 => .pclrPd7
  | .c8 => .pclrPb0
  | .c9 => .pclrPb1
  | .c10 => .pclrPb2
  | .c11 => .pclrPb3
  | .c12 => .pclrPb4
  | .c13 => .pclrPb5

/-- `out[c]`, the level of output line `c`; true is high (10_state.md R19). -/
def State.out (s : State) (c : Channel) : Bool := (s.port (portMap c).1).getLsbD (portMap c).2.val

/-! ## Sequencing of outcomes -/

/-- Goes on from a next state; a fault or a refusal ends the step. -/
def andThen (o : Host.Outcome State Fault Refusal) (f : State → Host.Outcome State Fault Refusal) :
    Host.Outcome State Fault Refusal :=
  match o with
  | .next s => f s
  | .fault r => .fault r
  | .refused r => .refused r

end Sys2Proof.Machine
end

