-- ==== Sys2Proof/Machine/Operands.lean ====
section
/-! DEFINITION. Format T (30_encoding.md R45 to R47, R55): cutting a line into fields, the value of a field, the defined
subset, and the fields that are written. These are all the operand forms of the block beside the index and value of a
duty write and the channel of a compare. -/

namespace Sys2Proof.Machine

/-- The bytes of one field. -/
abbrev Field := List Byte

/-- A comma, the field separator. -/
def isComma (b : Byte) : Bool := b == 0x2C#8

/-- `DIGIT`, 0x30 to 0x39. -/
def isDigit (b : Byte) : Bool := decide (0x30 ≤ b.toNat) && decide (b.toNat ≤ 0x39)

/-- A white-space byte: 0x20, 0x09 to 0x0D (R55). -/
def isSpace (b : Byte) : Bool := b == 0x20#8 || (decide (0x09 ≤ b.toNat) && decide (b.toNat ≤ 0x0D))

/-- A sign byte: 0x2B or 0x2D (R55). -/
def isSign (b : Byte) : Bool := b == 0x2B#8 || b == 0x2D#8

/-- The fields of a line: cut at every comma, so that a line with `n` commas has `n + 1` fields (R45). -/
def splitFields : List Byte → List Field
  | [] => [[]]
  | b :: r =>
    if isComma b then [] :: splitFields r
    else
      match splitFields r with
      | [] => [[b]]
      | f :: fs => (b :: f) :: fs

/-- The longest leading run of digits of a field (R45). -/
def digitRun (f : Field) : List Byte := f.takeWhile isDigit

/-- `dec` of a digit run: the leftmost digit is the most significant, the empty run is 0 (R46). -/
def decOf (ds : List Byte) : Nat := ds.foldl (fun n d => 10 * n + (d.toNat - 0x30)) 0

/-- `value(field) = min(dec(digits), 65535)` (R46). -/
def fieldValue (f : Field) : DutyValue := BitVec.ofNat 16 (min (decOf (digitRun f)) Config.maxDuty)

/-- A field less one leading sign byte, if it has one. -/
def dropSign : Field → Field
  | [] => []
  | b :: r => if isSign b then r else b :: r

/-- Whether a byte string begins with a digit. -/
def startsWithDigit : Field → Bool
  | [] => false
  | b :: _ => isDigit b

/-- Whether a field is outside the defined subset: no leading digit, but a digit after any white space and then at most
one sign (R55). -/
def outsideSubset (f : Field) : Bool :=
  !startsWithDigit f && startsWithDigit (dropSign (f.dropWhile isSpace))

/-- The fields of a line as they are numbered: all of them, or under `EMPTY_FIELD_POLICY = skip` those of at least one
character (decision D12). -/
def lineFields (cfg : Config) (line : List Byte) : List Field :=
  match cfg.emptyField with
  | .zero => splitFields line
  | .skip => (splitFields line).filter fun f => !f.isEmpty

/-- The fields that are looked at: the first twelve (40_update_frontend.md R69). -/
def writtenFields (cfg : Config) (line : List Byte) : List Field := (lineFields cfg line).take Config.maxFields

/-- The verdict on a line before any write: none, or the reason why it has no meaning (40_update_frontend.md R67, R77;
decision D13 for the option `FIELD_OVERFLOW = refuse`; the order of the two tests is notes/assumptions/10.md). -/
def lineVerdict (cfg : Config) (line : List Byte) : Option Refusal :=
  if cfg.fieldPrefix = .refuse ∧ (writtenFields cfg line).any outsideSubset then some .fieldPrefix
  else if cfg.fieldOverflow = .refuse ∧
      ((writtenFields cfg line).any fun f => decide (Config.maxDuty < decOf (digitRun f))) then some .fieldOverflow
  else none

/-- The line of an update that the reader stored: its first 49 bytes, up to its first 0x00 (30_encoding.md R45,
40_update_frontend.md R64, R76). -/
def sweepLine (bytes : List Byte) : List Byte := (bytes.take Config.maxLine).takeWhile fun b => b != 0x00#8

end Sys2Proof.Machine
end

