-- ==== Sys2Proof/Machine/Flags.lean ====
section
/-! DEFINITION. The block has no status flags, condition codes or predicates (10_state.md R22), so no flag computation
exists. What stands here are the two results that are used at once and stored nowhere (R22): the result of a compare and
the result of the reader. -/

namespace Sys2Proof.Machine

/-- The reader's result (40_update_frontend.md R61). -/
inductive PollResult where
  | noUpdate
  | updateAvailable
  deriving DecidableEq, Repr

/-- The comparator: 16-bit equality of the duty value with the zero-extended level (42_comparator_toggle.md R94 to
R96). -/
def dutyMatches (s : State) (c : Channel) : Bool := dutyRead s c == zext16 s.x

end Sys2Proof.Machine
end

