-- ==== Sys2Proof/Machine/FrontEnd.lean ====
section
/-! DEFINITION. The update front-end (40_update_frontend.md): `POLL`, `UPDATE`, `DWR`, `LBCLR`, the service procedure of
R75, and the meaning of a format T line. -/

namespace Sys2Proof.Machine

/-! ## POLL -/

/-- The appending loop of `POLL` (R61, R63, R64): a byte is stored at the fill pointer while that is below 49, and is
dropped otherwise. -/
def storeSweep : List Byte → Memory → LinePos → Memory × LinePos
  | [], m, p => (m, p)
  | b :: r, m, p =>
    if h : p.val < 49 then storeSweep r (m.write p b) ⟨p.val + 1, by omega⟩ else storeSweep r m p

/-- Whether a sweep is dropped whole: only under the option `LINE_OVERFLOW_POLICY = reject_line`, when it exceeds 49 bytes
(decision D10; notes/assumptions/11.md). -/
def rejectsSweep (cfg : Config) (bytes : List Byte) : Bool :=
  decide (cfg.lineOverflow = .rejectLine) && decide (Config.maxLine < bytes.length)

/-- `POLL(s)` (R61): no byte, no update (R62); otherwise the sweep is stored from position 0, then the terminator, and
the fill pointer stands at it. The flush drops nothing that the block can see (R65). -/
def pollSweep (s : State) (bytes : List Byte) : PollResult × State :=
  if bytes = [] ∨ rejectsSweep s.cfg bytes then (.noUpdate, s)
  else
    let stored := storeSweep bytes s.lb 0
    (.updateAvailable, { s with lb := stored.1.write stored.2 0x00#8, wp := stored.2 })

/-- Takes the coming sweep from the transport. -/
def takeSweep (s : State) : List Byte × State :=
  match s.sweeps with
  | [] => ([], s)
  | b :: r => (b, { s with sweeps := r })

/-- `POLL` on the transport: its result and the state it leaves. -/
def poll (s : State) : PollResult × State := pollSweep (takeSweep s).2 (takeSweep s).1

/-! ## DWR -/

/-- `DWR idx, val` (R70): writes the entry of a channel; an index of none changes nothing (R71). -/
def dutyStore (s : State) (idx : DutyIndex) (v : DutyValue) : State :=
  match channelOfIndex idx with
  | some c => dutyWrite s c v
  | none => s

/-! ## UPDATE -/

/-- The loop of `UPDATE` (R67): field `k` goes to entry `2 + k` while `k < 12`; later fields are ignored (R69). -/
def writeFields : State → Nat → List Field → State
  | s, _, [] => s
  | s, k, f :: fs =>
    writeFields (if k < Config.maxFields then dutyStore s (BitVec.ofNat 4 (2 + k)) (fieldValue f) else s) (k + 1) fs

/-- `UPDATE` (R67): parses the line in the buffer and issues its duty writes, unless the line has no meaning (R77). -/
def parseLine (s : State) : Host.Outcome State Fault Refusal :=
  match lineVerdict s.cfg s.lb.line with
  | some r => .refused r
  | none => .next (writeFields s 0 (lineFields s.cfg s.lb.line))

/-! ## LBCLR -/

/-- `LBCLR` (R72): all fifty positions 0x00, fill pointer 0. -/
def clearLine (s : State) : State := { s with lb := [], wp := 0 }

/-! ## The service procedure -/

/-- `Service(s)` (R75), after the reader has answered. -/
def serviceAfterPoll : PollResult × State → Host.Outcome State Fault Refusal
  | (.noUpdate, t) => .next t
  | (.updateAvailable, t) => andThen (parseLine t) fun u => .next (clearLine u)

/-- The words of the duty write port that have arrived. -/
def arrivedWrites : List (Nat × BitVec 20) → List (BitVec 20)
  | (0, w) :: r => w :: arrivedWrites r
  | _ => []

/-- The words of the duty write port that have not. -/
def laterWrites : List (Nat × BitVec 20) → List (Nat × BitVec 20)
  | (0, _) :: r => laterWrites r
  | l => l

/-- Performs format H words in list order (41_cycle_controller.md R79). -/
def storeWords (s : State) (ws : List (BitVec 20)) : State :=
  ws.foldl (fun t w => dutyStore t (w.extractLsb' 16 4) (w.extractLsb' 0 16)) s

/-- Performs the duty writes that have arrived at the write port. -/
def landWrites (s : State) : State :=
  storeWords { s with writes := laterWrites s.writes } (arrivedWrites s.writes)

/-! ## The meanings -/

/-- `POLL` (R61). Its result is stored nowhere (10_state.md R22). -/
def execPoll (s : State) : Host.Outcome State Fault Refusal := .next (poll s).2

/-- `UPDATE` (R67). -/
def execUpdate (s : State) : Host.Outcome State Fault Refusal := parseLine s

/-- `LBCLR` (R72). -/
def execLbclr (s : State) : Host.Outcome State Fault Refusal := .next (clearLine s)

/-- `DWR idx, val` (R70, R71). -/
def execDwr (idx : DutyIndex) (val : DutyValue) (s : State) : Host.Outcome State Fault Refusal :=
  .next (dutyStore s idx val)

/-- One format T line: the update it is, carried through the service procedure of R75 as one sweep, of any length (R62,
R64, R77; 30_encoding.md R45 to R47; notes/assumptions/6.md). -/
def execLine (bytes : List Byte) (s : State) : Host.Outcome State Fault Refusal :=
  serviceAfterPoll (pollSweep s bytes)

end Sys2Proof.Machine
end

