-- ==== Sys2Proof/Machine/Controller.lean ====
section
/-! DEFINITION. The waveform cycle controller (41_cycle_controller.md): the advance of the sequencer position, and the
meanings of `SVC`, `RSTD` and `RSTB`. The order of the two port resets is `PRST_ORDER` (decision D4). -/

namespace Sys2Proof.Machine

/-- The phase of the first port reset of a cycle. -/
def firstReset (cfg : Config) : Phase :=
  match cfg.prstOrder with
  | .dThenB => .rstd
  | .bThenD => .rstb

/-- The phase after `RSTD`. -/
def phaseAfterRstd (cfg : Config) : Phase :=
  match cfg.prstOrder with
  | .dThenB => .rstb
  | .bThenD => .cmp

/-- The phase after `RSTB`. -/
def phaseAfterRstb (cfg : Config) : Phase :=
  match cfg.prstOrder with
  | .dThenB => .cmp
  | .bThenD => .rstd

/-- The next channel of a level pass; none after channel 13 (R82). -/
def nextChannel : Channel → Option Channel
  | .c2 => some .c3
  | .c3 => some .c4
  | .c4 => some .c5
  | .c5 => some .c6
  | .c6 => some .c7
  | .c7 => some .c8
  | .c8 => some .c9
  | .c9 => some .c10
  | .c10 => some .c11
  | .c11 => some .c12
  | .c12 => some .c13
  | .c13 => none

/-- The counter updates that follow the compare of channel `c` (R78, R82 to R84). -/
def advance (s : State) (c : Channel) : State :=
  match nextChannel c with
  | some c' => { s with i := c' }
  | none =>
    if s.x.toNat < 255 then { s with i := .c2, x := s.x + 1#8 }
    else if s.z < s.cfg.K - 1 then { s with i := .c2, x := 0#8, z := s.z + 1, phase := firstReset s.cfg }
    else { s with i := .c2, x := 0#8, z := 0, phase := .service }

/-- `SVC` (R79): the service procedure on the coming sweep, then the duty writes that have arrived at the write port, in
order, then the phase of the first port reset. The ports hold (R91). -/
def execSvc (s : State) : Host.Outcome State Fault Refusal :=
  andThen (serviceAfterPoll (poll s)) fun t => .next { landWrites t with phase := firstReset t.cfg }

/-- `RSTD` (R80): `PD` all-high. -/
def execRstd (s : State) : Host.Outcome State Fault Refusal :=
  .next { portSetAll s .pd with phase := phaseAfterRstd s.cfg }

/-- `RSTB` (R81): `PB` all-high. -/
def execRstb (s : State) : Host.Outcome State Fault Refusal :=
  .next { portSetAll s .pb with phase := phaseAfterRstb s.cfg }

end Sys2Proof.Machine
end

