-- ==== Sys2Proof/Machine/Comparator.lean ====
section
/-! DEFINITION. The duty comparator (42_comparator_toggle.md R94 to R98): the meaning of `CMP c`, the compare and then the
counter updates of 41_cycle_controller.md R78. The operand is the channel counter (R94); a `CMP c` that is issued while
the counter holds another channel counts on from `c` (notes/assumptions/7.md). -/

namespace Sys2Proof.Machine

/-- The compare part of `CMP c` (R94): on equality the channel's port bit is cleared, otherwise nothing. -/
def compareChannel (s : State) (c : Channel) : State :=
  if dutyMatches s c then portClrBit s (portMap c).1 (portMap c).2 else s

/-- `CMP c`: the compare, then the counter updates. -/
def compareStep (s : State) (c : Channel) : Host.Outcome State Fault Refusal :=
  .next (advance (compareChannel s c) c)

/-- `CMP 2` (R94). -/
def execCmp2 (s : State) : Host.Outcome State Fault Refusal := compareStep s .c2

/-- `CMP 3` (R94). -/
def execCmp3 (s : State) : Host.Outcome State Fault Refusal := compareStep s .c3

/-- `CMP 4` (R94). -/
def execCmp4 (s : State) : Host.Outcome State Fault Refusal := compareStep s .c4

/-- `CMP 5` (R94). -/
def execCmp5 (s : State) : Host.Outcome State Fault Refusal := compareStep s .c5

/-- `CMP 6` (R94). -/
def execCmp6 (s : State) : Host.Outcome State Fault Refusal := compareStep s .c6

/-- `CMP 7` (R94). -/
def execCmp7 (s : State) : Host.Outcome State Fault Refusal := compareStep s .c7

/-- `CMP 8` (R94). -/
def execCmp8 (s : State) : Host.Outcome State Fault Refusal := compareStep s .c8

/-- `CMP 9` (R94). -/
def execCmp9 (s : State) : Host.Outcome State Fault Refusal := compareStep s .c9

/-- `CMP 10` (R94). -/
def execCmp10 (s : State) : Host.Outcome State Fault Refusal := compareStep s .c10

/-- `CMP 11` (R94). -/
def execCmp11 (s : State) : Host.Outcome State Fault Refusal := compareStep s .c11

/-- `CMP 12` (R94). -/
def execCmp12 (s : State) : Host.Outcome State Fault Refusal := compareStep s .c12

/-- `CMP 13` (R94). -/
def execCmp13 (s : State) : Host.Outcome State Fault Refusal := compareStep s .c13

end Sys2Proof.Machine
end

