-- ==== Sys2Proof/Machine/PortEngine.lean ====
section
/-! DEFINITION. The port bit-toggle engine (42_comparator_toggle.md R101, R102, R105): the meanings of `PSET p` and
`PCLR p,b`. No operation reads a port, sets a single bit or inverts one. -/

namespace Sys2Proof.Machine

/-- `PSET PD` (R101). -/
def execPsetPd (s : State) : Host.Outcome State Fault Refusal := .next (portSetAll s .pd)

/-- `PSET PB` (R101). -/
def execPsetPb (s : State) : Host.Outcome State Fault Refusal := .next (portSetAll s .pb)

/-- `PCLR PD,2` (R102). -/
def execPclrPd2 (s : State) : Host.Outcome State Fault Refusal := .next (portClrBit s .pd 2)

/-- `PCLR PD,3` (R102). -/
def execPclrPd3 (s : State) : Host.Outcome State Fault Refusal := .next (portClrBit s .pd 3)

/-- `PCLR PD,4` (R102). -/
def execPclrPd4 (s : State) : Host.Outcome State Fault Refusal := .next (portClrBit s .pd 4)

/-- `PCLR PD,5` (R102). -/
def execPclrPd5 (s : State) : Host.Outcome State Fault Refusal := .next (portClrBit s .pd 5)

/-- `PCLR PD,6` (R102). -/
def execPclrPd6 (s : State) : Host.Outcome State Fault Refusal := .next (portClrBit s .pd 6)

/-- `PCLR PD,7` (R102). -/
def execPclrPd7 (s : State) : Host.Outcome State Fault Refusal := .next (portClrBit s .pd 7)

/-- `PCLR PB,0` (R102). -/
def execPclrPb0 (s : State) : Host.Outcome State Fault Refusal := .next (portClrBit s .pb 0)

/-- `PCLR PB,1` (R102). -/
def execPclrPb1 (s : State) : Host.Outcome State Fault Refusal := .next (portClrBit s .pb 1)

/-- `PCLR PB,2` (R102). -/
def execPclrPb2 (s : State) : Host.Outcome State Fault Refusal := .next (portClrBit s .pb 2)

/-- `PCLR PB,3` (R102). -/
def execPclrPb3 (s : State) : Host.Outcome State Fault Refusal := .next (portClrBit s .pb 3)

/-- `PCLR PB,4` (R102). -/
def execPclrPb4 (s : State) : Host.Outcome State Fault Refusal := .next (portClrBit s .pb 4)

/-- `PCLR PB,5` (R102). -/
def execPclrPb5 (s : State) : Host.Outcome State Fault Refusal := .next (portClrBit s .pb 5)

end Sys2Proof.Machine
end

