-- ==== Sys2Proof/Machine/Dispatch.lean ====
section
/-! DEFINITION. Dispatch: one arm per operation. -/

namespace Sys2Proof.Machine

def exec (i : Instr) (s : State) : Host.Outcome State Fault Refusal :=
  match i with
  | .svc => Sys2Proof.Machine.execSvc s
  | .poll => Sys2Proof.Machine.execPoll s
  | .update => Sys2Proof.Machine.execUpdate s
  | .lbclr => Sys2Proof.Machine.execLbclr s
  | .rstd => Sys2Proof.Machine.execRstd s
  | .rstb => Sys2Proof.Machine.execRstb s
  | .cmp2 => Sys2Proof.Machine.execCmp2 s
  | .cmp3 => Sys2Proof.Machine.execCmp3 s
  | .cmp4 => Sys2Proof.Machine.execCmp4 s
  | .cmp5 => Sys2Proof.Machine.execCmp5 s
  | .cmp6 => Sys2Proof.Machine.execCmp6 s
  | .cmp7 => Sys2Proof.Machine.execCmp7 s
  | .cmp8 => Sys2Proof.Machine.execCmp8 s
  | .cmp9 => Sys2Proof.Machine.execCmp9 s
  | .cmp10 => Sys2Proof.Machine.execCmp10 s
  | .cmp11 => Sys2Proof.Machine.execCmp11 s
  | .cmp12 => Sys2Proof.Machine.execCmp12 s
  | .cmp13 => Sys2Proof.Machine.execCmp13 s
  | .dwr idx val => Sys2Proof.Machine.execDwr idx val s
  | .psetPd => Sys2Proof.Machine.execPsetPd s
  | .psetPb => Sys2Proof.Machine.execPsetPb s
  | .pclrPd2 => Sys2Proof.Machine.execPclrPd2 s
  | .pclrPd3 => Sys2Proof.Machine.execPclrPd3 s
  | .pclrPd4 => Sys2Proof.Machine.execPclrPd4 s
  | .pclrPd5 => Sys2Proof.Machine.execPclrPd5 s
  | .pclrPd6 => Sys2Proof.Machine.execPclrPd6 s
  | .pclrPd7 => Sys2Proof.Machine.execPclrPd7 s
  | .pclrPb0 => Sys2Proof.Machine.execPclrPb0 s
  | .pclrPb1 => Sys2Proof.Machine.execPclrPb1 s
  | .pclrPb2 => Sys2Proof.Machine.execPclrPb2 s
  | .pclrPb3 => Sys2Proof.Machine.execPclrPb3 s
  | .pclrPb4 => Sys2Proof.Machine.execPclrPb4 s
  | .pclrPb5 => Sys2Proof.Machine.execPclrPb5 s
  | .line bytes => Sys2Proof.Machine.execLine bytes s

end Sys2Proof.Machine
end

