-- ==== Sys2Proof/Machine/Sequencer.lean ====
section
/-! DEFINITION. Which operation the next step runs (41_cycle_controller.md R78, R86; 20_memory.md R42): the sequencer's
own selection, a duty write that falls between two engine steps, or a word presented directly on an interface. -/

namespace Sys2Proof.Machine

/-- The micro-operation word the sequencer selects: a function of the position alone (R86). -/
def selectWord (s : State) : BitVec 8 :=
  match s.phase with
  | .service => 0x00#8
  | .rstd => 0x10#8
  | .rstb => 0x11#8
  | .cmp => 0x20#8 + BitVec.ofNat 8 s.i.num

/-- What the next step runs: the interface word, the state it runs on, and whether it is a step of the engine. -/
structure Issue where
  frame : Frame
  start : State
  engine : Bool
  deriving DecidableEq, Repr

/-- The engine's own next step. -/
def engineIssue (s : State) : Issue := ⟨.m (selectWord s), s, true⟩

/-- A duty write that lands before the engine's next step: under `HOST_WRITE_WINDOW = any_step` only, when the next word
of the write port has arrived (20_memory.md R42). -/
def landingWrite (s : State) : Option (BitVec 20 × State) :=
  match s.cfg.hostWriteWindow, s.writes with
  | .anyStep, (0, w) :: r => some (w, { s with writes := r })
  | _, _ => none

/-- What the next step runs: a presented word first, then a landing duty write, then the sequencer's selection. -/
def issue (s : State) : Issue :=
  match s.presented with
  | f :: r => ⟨f, { s with presented := r }, false⟩
  | [] =>
    match landingWrite s with
    | some (w, t) => ⟨.h w, t, false⟩
    | none => engineIssue s

/-- One engine step has completed: the first word of the write port that has not arrived is one step nearer. -/
def tickWrites : List (Nat × BitVec 20) → List (Nat × BitVec 20)
  | [] => []
  | (0, w) :: r => (0, w) :: tickWrites r
  | (n + 1, w) :: r => (n, w) :: r

/-- What a step leaves once its operation has answered: an engine step counts down the write port. -/
def settle (engine : Bool) (o : Host.Outcome State Fault Refusal) : Host.Outcome State Fault Refusal :=
  andThen o fun t => .next (if engine then { t with writes := tickWrites t.writes } else t)

/-- The refusal of a word that is no operation (60_exceptions.md R124). -/
def refusalOf : DecodeError → Refusal
  | .reservedMicroop => .reservedMicroop
  | .reservedPortop => .reservedPortop

/-- Where the sequencer issues an operation: the phase and channel counter that select it; none for an operation that is
no micro-operation of the engine (30_encoding.md R49, "issued by"). -/
def issuePoint : Instr → Option (Phase × Channel)
  | .svc => some (.service, .c2)
  | .rstd => some (.rstd, .c2)
  | .rstb => some (.rstb, .c2)
  | .cmp2 => some (.cmp, .c2)
  | .cmp3 => some (.cmp, .c3)
  | .cmp4 => some (.cmp, .c4)
  | .cmp5 => some (.cmp, .c5)
  | .cmp6 => some (.cmp, .c6)
  | .cmp7 => some (.cmp, .c7)
  | .cmp8 => some (.cmp, .c8)
  | .cmp9 => some (.cmp, .c9)
  | .cmp10 => some (.cmp, .c10)
  | .cmp11 => some (.cmp, .c11)
  | .cmp12 => some (.cmp, .c12)
  | .cmp13 => some (.cmp, .c13)
  | .poll | .update | .lbclr => none
  | .dwr _ _ => none
  | .psetPd | .psetPb => none
  | .pclrPd2 | .pclrPd3 | .pclrPd4 | .pclrPd5 | .pclrPd6 | .pclrPd7 => none
  | .pclrPb0 | .pclrPb1 | .pclrPb2 | .pclrPb3 | .pclrPb4 | .pclrPb5 => none
  | .line _ => none

/-- Whether a word on an interface is a micro-operation of the engine, which is the sequencer's own selection. -/
def isEngineFrame (f : Frame) : Bool :=
  match decode f with
  | .ok i => (issuePoint i).isSome
  | .error _ => false

/-- `s` with an interface word placed so that the next step runs it: a micro-operation of the engine by moving the
sequencer to where it is issued and holding back what would run before it; any other word by presenting it. -/
def placeFrame (f : Frame) (s : State) : State :=
  match decode f with
  | .ok i =>
    match issuePoint i with
    | some (ph, c) =>
      { s with
        phase := ph
        i := c
        presented := []
        writes := match s.cfg.hostWriteWindow with
          | .anyStep => laterWrites s.writes
          | .serviceOnly => s.writes }
    | none => { s with presented := f :: s.presented }
  | .error _ => { s with presented := f :: s.presented }

/-- Places the word of a table row; a number that is no row's word is not placed. -/
def placeWord (s : State) (nbits w : Nat) : State :=
  match tableFrame nbits w with
  | some f => placeFrame f s
  | none => s

end Sys2Proof.Machine
end

