-- ==== Sys2Proof/Machine/Step.lean ====
section
/-! DEFINITION. One step of the machine (41_cycle_controller.md R78): the issued word is decoded and run. -/

namespace Sys2Proof.Machine

/-- One step. -/
def step (s : State) : Host.Outcome State Fault Refusal :=
  match decode (issue s).frame with
  | .ok i => settle (issue s).engine (exec i (issue s).start)
  | .error e => .refused (refusalOf e)

/-- `s` with the word of a table row placed where the next step takes it. -/
def State.withFetchWord (s : State) (nbits w : Nat) : State := placeWord s nbits w

end Sys2Proof.Machine
end

