-- ==== Sys2Proof/Safety.lean ====
section
/-! DEFINITION. What counts as a safe run, in the terms the statements use: the legal sequencer positions
(41_cycle_controller.md R90), the invariant of the machine, whose turn the next step is, and the waveform of a line
(42_comparator_toggle.md R99, R100, R104). -/

namespace Sys2Proof.Machine

/-! ## Reserved words -/

/-- The words of format M that 30_encoding.md R52 lists as reserved. -/
def reservedM (w : BitVec 8) : Prop :=
  (0x04 ≤ w.toNat ∧ w.toNat ≤ 0x0F) ∨ (0x12 ≤ w.toNat ∧ w.toNat ≤ 0x1F) ∨ w.toNat = 0x20 ∨ w.toNat = 0x21 ∨
    w.toNat = 0x2E ∨ w.toNat = 0x2F ∨ 0x30 ≤ w.toNat

/-- The words of format P that 30_encoding.md R53 lists as reserved: `0p001` to `0p111`, `PCLR PD,0`, `PCLR PD,1`,
`PCLR PB,6`, `PCLR PB,7`. -/
def reservedP (w : BitVec 5) : Prop :=
  (0b00001 ≤ w.toNat ∧ w.toNat ≤ 0b00111) ∨ (0b01001 ≤ w.toNat ∧ w.toNat ≤ 0b01111) ∨ w.toNat = 0b10000 ∨
    w.toNat = 0b10001 ∨ w.toNat = 0b11110 ∨ w.toNat = 0b11111

/-! ## Positions -/

/-- The sequencer stands at a position of R90 (10_state.md R15 to R18): `z` in [0, K), and outside phase `CMP` the level
and the channel counter are at their starts, with `z = 0` in phase `SERVICE`. -/
def State.positionLegal (s : State) : Bool :=
  decide (s.z < s.cfg.K) &&
    match s.phase with
    | .service => s.z == 0 && s.x == 0#8 && s.i == .c2
    | .rstd | .rstb => s.x == 0#8 && s.i == .c2
    | .cmp => true

/-- The two states stand at the same sequencer position `(phase, z, x, i)`. -/
def SamePosition (s t : State) : Prop := s.phase = t.phase ∧ s.z = t.z ∧ s.x = t.x ∧ s.i = t.i

/-- The number of the step that comes next, within one `ITER` (41_cycle_controller.md R85): 0 for `SVC`, and
`1 + 3074 * z + t` for step `t` of cycle `z`, where `t` is 0 and 1 for the two port resets and `2 + 12 * x + (c - 2)` for
`CMP c` at level `x`. -/
def State.iterStep (s : State) : Nat :=
  match s.phase with
  | .service => 0
  | .rstd => 1 + 3074 * s.z + (if s.cfg.prstOrder = .dThenB then 0 else 1)
  | .rstb => 1 + 3074 * s.z + (if s.cfg.prstOrder = .dThenB then 1 else 0)
  | .cmp => 1 + 3074 * s.z + (2 + 12 * s.x.toNat + (s.i.num - 2))

/-- The steps of one `ITER`: `1 + 3074 * K` (41_cycle_controller.md R85). -/
def iterLength (cfg : Config) : Nat := 1 + 3074 * cfg.K

/-! ## Whose turn it is -/

/-- The next step is the engine's own: no word is presented and no duty write lands before it. -/
def State.engineTurn (s : State) : Prop := s.presented = [] ∧ landingWrite s = none

/-- Until the next service window every step is the engine's own: no word is presented, and duty writes land in the
service window only (20_memory.md R42) or there are none. -/
def State.engineAlone (s : State) : Prop :=
  s.presented = [] ∧ (s.cfg.hostWriteWindow = .serviceOnly ∨ s.writes = [])

/-- The coming `SVC` gives its sweep a meaning: the sweep brings no update, or its line is one the parser accepts. -/
def State.sweepAccepted (s : State) : Prop :=
  (poll s).1 = .noUpdate ∨ lineVerdict s.cfg (sweepLine (takeSweep s).1) = none

/-! ## The line space -/

/-- `text` is the line in the buffer and `n` the least position that holds 0x00 (40_update_frontend.md R67). -/
def LineAt (m : Memory) (n : LinePos) (text : List Byte) : Prop :=
  m.read n = 0x00#8 ∧ text.length = n.val ∧
    ∀ k : LinePos, k.val < n.val → text[k.val]? = some (m.read k) ∧ m.read k ≠ 0x00#8

/-- The value entry `c` takes from the numbered fields of a line: field `c - 2` if there is one among the first twelve,
else the entry keeps its value (30_encoding.md R47, 40_update_frontend.md R67, R69). -/
def entryAfter (s : State) (fields : List Field) (c : Channel) : DutyValue :=
  match (fields.take 12)[c.num - 2]? with
  | some f => fieldValue f
  | none => dutyRead s c

/-! ## The invariant -/

/-- What every step keeps: a legal configuration and position, the line space in canonical form with its last position
0x00, the reserved duty entries 0, and no engine micro-operation among the words presented. -/
structure State.Inv (s : State) : Prop where
  cfgLegal : s.cfg.wf = true
  position : s.positionLegal = true
  lineCanonical : s.lb.wf = true
  lineEnds : s.lb.read 49 = 0x00#8
  reserved0 : s.duty[0] = 0#16
  reserved1 : s.duty[1] = 0#16
  noEngineWord : ∀ f ∈ s.presented, isEngineFrame f = false

/-- Between the steps of the hardware the front-end rests: no word is presented, the line buffer is all 0x00 and the fill
pointer is 0 (40_update_frontend.md R63, R72). -/
def State.frontEndRests (s : State) : Prop := s.presented = [] ∧ s.lb = [] ∧ s.wp = 0

/-! ## The waveform -/

/-- In phase `CMP`, the level of the next compare of channel `c`; 256 when the cycle has none left
(42_comparator_toggle.md R104). -/
def State.nextLevel (s : State) (c : Channel) : Nat := if s.i.num ≤ c.num then s.x.toNat else s.x.toNat + 1

/-- The lines follow the duty values as they stand: once the first of the two port resets is done the lines of that port
are high, and in phase `CMP` a line is low exactly if one of this cycle's compares of its channel was at the level equal
to its duty value (R99). -/
def State.Waveform (s : State) : Prop :=
  match s.phase with
  | .service => True
  | .rstd => s.cfg.prstOrder = .bThenD → ∀ c, (portMap c).1 = .pb → s.out c = true
  | .rstb => s.cfg.prstOrder = .dThenB → ∀ c, (portMap c).1 = .pd → s.out c = true
  | .cmp => ∀ c, s.out c = decide (s.nextLevel c ≤ (dutyRead s c).toNat)

/-- In phase `CMP`, the line of channel `c` will be low at the end of the cycle if no duty write comes: it is low, or a
compare of this cycle is still to find the duty value equal (R104). -/
def State.endsLow (s : State) (c : Channel) : Prop :=
  s.out c = false ∨ (s.nextLevel c ≤ (dutyRead s c).toNat ∧ (dutyRead s c).toNat < 256)

end Sys2Proof.Machine
end

