-- ==== Sys2Proof/Certificates/Slice0/Obligations.lean ====
section
/-! DEFINITION. The statements for the provers. -/

open Sys2Proof Sys2Proof.Machine

/-! ## Encoding -/

/-- Decoding the encoding of an operation gives it back, the byte string of a line having any length
(30_encoding.md sections 2 to 6; log entry 20). -/
def Obligations.DecodeEncodeRoundTrip : Prop :=
  ∀ i : Instr, decode (encode i) = .ok i

/-- A word that decodes is the encoding of the one operation it decodes to; and that operation is well formed, but for a
byte string of the transport that has not the 1 to 49 bytes of a format T word (log entry 20). -/
def Obligations.EncodeDecodeRoundTrip : Prop :=
  ∀ (f : Frame) (i : Instr), decode f = .ok i → encode i = f ∧
    (i.wellFormed = true ↔ ∀ bytes, f = .t bytes → 1 ≤ bytes.length ∧ bytes.length ≤ 49)

/-- R52: exactly the listed words of format M are reserved; the sequencer selects none of them; presented to the decoder
they have no behaviour but the refusal of their name. -/
def Obligations.ReservedMicroopsRefused : Prop :=
  (∀ w : BitVec 8, decode (.m w) = .error .reservedMicroop ↔ reservedM w) ∧
  (∀ w : BitVec 8, (∃ i, decode (.m w) = .ok i) ↔ ¬reservedM w) ∧
  (∀ s : State, ¬reservedM (selectWord s)) ∧
  (∀ (s : State) (w : BitVec 8) (r : List Frame), s.presented = .m w :: r → reservedM w →
    step s = .refused .reservedMicroop)

/-- R53: exactly the listed words of format P are reserved; no port operation of the engine, `PSET p` or `PCLR map(i)`, is
one, the mapper's image leaving out `PD[0]`, `PD[1]`, `PB[6]`, `PB[7]`; presented to the decoder they have no behaviour
but the refusal of their name. -/
def Obligations.ReservedPortopsRefused : Prop :=
  (∀ w : BitVec 5, decode (.p w) = .error .reservedPortop ↔ reservedP w) ∧
  (∀ w : BitVec 5, (∃ i, decode (.p w) = .ok i) ↔ ¬reservedP w) ∧
  (∀ c : Channel, portMap c ≠ (.pd, 0) ∧ portMap c ≠ (.pd, 1) ∧ portMap c ≠ (.pb, 6) ∧ portMap c ≠ (.pb, 7)) ∧
  (∀ c : Channel, ∃ w, encode (pclrOf c) = .p w ∧ ¬reservedP w) ∧
  (∀ p : PortSel, ∃ w, encode (psetOf p) = .p w ∧ ¬reservedP w) ∧
  (∀ (s : State) (w : BitVec 5) (r : List Frame), s.presented = .p w :: r → reservedP w →
    step s = .refused .reservedPortop)

/-- R48: a duty write is `idx` in bits 19:16 and `val` in bits 15:0; every word is one; an index that is no channel's is
accepted and has no effect, the others write; `DWR 3, 255` is 0x300FF. -/
def Obligations.DutyWordFormat : Prop :=
  (∀ (idx : DutyIndex) (val : DutyValue), ∃ w : BitVec 20, encode (.dwr idx val) = .h w ∧
    w.extractLsb' 16 4 = idx ∧ w.extractLsb' 0 16 = val ∧ decode (.h w) = .ok (.dwr idx val)) ∧
  (∀ w : BitVec 20, decode (.h w) = .ok (.dwr (w.extractLsb' 16 4) (w.extractLsb' 0 16))) ∧
  (∀ (idx : DutyIndex) (val : DutyValue) (s : State), idx.toNat < 2 ∨ 13 < idx.toNat → exec (.dwr idx val) s = .next s) ∧
  (∀ (idx : DutyIndex) (val : DutyValue) (s : State) (c : Channel), c.num = idx.toNat →
    exec (.dwr idx val) s = .next (dutyWrite s c val)) ∧
  encode (.dwr 3 255) = .h 0x300FF#20

/-- R50: the words of `PSET p` and `PCLR p,b`, the bits 2:0 that must be 000 for `PSET`, the primitive each is, and that a
compare emits no other port operation than `PCLR map(i)`. -/
def Obligations.PortOperationWords : Prop :=
  (encode (psetOf .pd) = .p 0b00000#5 ∧ encode (psetOf .pb) = .p 0b01000#5) ∧
  (∀ c : Channel, encode (pclrOf c) = .p (1#1 ++ (if (portMap c).1 = .pb then 1#1 else 0#1) ++
    BitVec.ofNat 3 (portMap c).2.val)) ∧
  (∀ (p : BitVec 1) (b : BitVec 3), b ≠ 0#3 → decode (.p (0#1 ++ p ++ b)) = .error .reservedPortop) ∧
  (∀ (p : PortSel) (s : State), exec (psetOf p) s = .next (portSetAll s p)) ∧
  (∀ (c : Channel) (s : State), exec (pclrOf c) s = .next (portClrBit s (portMap c).1 (portMap c).2)) ∧
  (∀ (c : Channel) (s : State), compareChannel s c = s ∨ exec (pclrOf c) s = .next (compareChannel s c))

/-- Words written out from the tables of R48, R49 and R50 decode to their operations. -/
def Obligations.KnownWordsDecode : Prop :=
  decode (.m 0b00000000#8) = .ok .svc ∧ decode (.m 0b00000001#8) = .ok .poll ∧
  decode (.m 0b00010001#8) = .ok .rstb ∧ decode (.m 0b00101101#8) = .ok .cmp13 ∧
  decode (.h 0b00110000000011111111#20) = .ok (.dwr 3 255) ∧ decode (.p 0b01000#5) = .ok .psetPb ∧
  decode (.p 0b10010#5) = .ok .pclrPd2 ∧ decode (.p 0b11101#5) = .ok .pclrPb5 ∧
  decode (.t [0x35#8, 0x2C#8, 0x31#8]) = .ok (.line [0x35#8, 0x2C#8, 0x31#8])

/-! ## The step -/

/-- A step runs the decoded operation: of the first presented word; else of a duty write that has arrived under
`any_step`; else of the word the sequencer selects, after which the write port counts one engine step
(41_cycle_controller.md section 1; 20_memory.md section 5; the model's queues are log entries 4 and 5). -/
def Obligations.StepRunsDecodedOperation : Prop :=
  (∀ (s : State) (f : Frame) (r : List Frame) (i : Instr), s.presented = f :: r → decode f = .ok i →
    step s = exec i { s with presented := r }) ∧
  (∀ (s : State) (w : BitVec 20) (r : List (Nat × BitVec 20)), s.presented = [] → s.cfg.hostWriteWindow = .anyStep →
    s.writes = (0, w) :: r → step s = exec (.dwr (w.extractLsb' 16 4) (w.extractLsb' 0 16)) { s with writes := r }) ∧
  (∀ (s : State) (i : Instr), s.engineTurn → decode (.m (selectWord s)) = .ok i →
    step s = match exec i s with
      | .next t => .next { t with writes := tickWrites t.writes }
      | .fault r => .fault r
      | .refused r => .refused r)

/-- The word of a table row, once placed, is the very next operation that runs, on a state that agrees with the given one
in everything but the position and the two queues that the placing uses (log entry 8). -/
def Obligations.PlacedWordRunsNext : Prop :=
  ∀ (s : State) (nbits w : Nat) (i : Instr), decodeTableWord nbits w = some i →
    ∃ (engine : Bool) (u : State), step (s.withFetchWord nbits w) = settle engine (exec i u) ∧
      u.cfg = s.cfg ∧ u.duty = s.duty ∧ u.pd = s.pd ∧ u.pb = s.pb ∧ u.z = s.z ∧ u.x = s.x ∧ u.lb = s.lb ∧ u.wp = s.wp ∧
      u.sweeps = s.sweeps

/-- R78: on the engine's turn, under a configuration with this hardware's port bytes and reset order, a step is the case of
`EngineStep` that its phase selects. The host input of `SVC` is a sweep, no duty write having arrived; or, without an update,
the duty writes that have arrived, in list order (`settle true` is the model's count-down of the write port, log entry 4; an
input of both kinds is not R78's, see UpdateBeforeArrivedWrites). -/
def Obligations.EngineStepFollowsThePseudocode : Prop :=
  ∀ s : State, s.cfg.standardEngine = true → s.engineTurn →
    (s.phase = .service → arrivedWrites s.writes = [] → step s = settle true
      (andThen (serviceAfterPoll (poll s)) fun t => .next { t with phase := .rstd })) ∧
    (s.phase = .service → (poll s).1 = .noUpdate → step s = settle true
      (.next { storeWords { (poll s).2 with writes := laterWrites s.writes } (arrivedWrites s.writes) with
        phase := .rstd })) ∧
    (s.phase = .rstd → step s = settle true (.next { s with pd := 0xFF#8, phase := .rstb })) ∧
    (s.phase = .rstb → step s = settle true (.next { s with pb := 0xFF#8, phase := .cmp })) ∧
    (s.phase = .cmp → ∃ t : State, step s = .next t ∧
      (if dutyRead s s.i = zext16 s.x then
        t.pd = (portClrBit s (portMap s.i).1 (portMap s.i).2).pd ∧ t.pb = (portClrBit s (portMap s.i).1 (portMap s.i).2).pb
       else t.pd = s.pd ∧ t.pb = s.pb) ∧
      t.duty = s.duty ∧ t.lb = s.lb ∧ t.wp = s.wp ∧ t.sweeps = s.sweeps ∧ t.cfg = s.cfg ∧
      (if s.i.num < 13 then t.i.num = s.i.num + 1 ∧ t.x = s.x ∧ t.z = s.z ∧ t.phase = .cmp
       else t.i = .c2 ∧
        if s.x.toNat < 255 then t.x = s.x + 1#8 ∧ t.z = s.z ∧ t.phase = .cmp
        else t.x = 0#8 ∧
          if s.z < s.cfg.K - 1 then t.z = s.z + 1 ∧ t.phase = .rstd
          else t.z = 0 ∧ t.phase = .service))

/-! ## The front-end -/

/-- R61: `POLL`, word 0x01. Without a byte it answers "no update" and changes nothing. Otherwise the bytes are taken from
the transport; the first 49 stand in the buffer from position 0 on, the terminator after them, every position beyond as it
was; the fill pointer stands at the terminator; the answer is "update available"; and nothing else changes. (A sweep that
the option `reject_line` drops whole is not meant: see RejectedSweepDropped. The taking of the sweep off the model's list
of coming sweeps is log entry 3.) -/
def Obligations.PollStoresTheSweep : Prop :=
  encode .poll = .m 0x01#8 ∧
  (∀ s : State, (takeSweep s).1 = [] → (poll s).1 = .noUpdate ∧
    exec .poll s = .next { s with sweeps := s.sweeps.tail }) ∧
  (∀ (s : State) (bytes : List Byte) (rest : List (List Byte)), s.sweeps = bytes :: rest → bytes ≠ [] →
    rejectsSweep s.cfg bytes = false → (poll s).1 = .updateAvailable ∧
    ∃ t : State, exec .poll s = .next t ∧
      (∀ a : LinePos, t.lb.read a = ((bytes.take 49 ++ [0x00#8])[a.val]?).getD (s.lb.read a)) ∧
      t.wp.val = min bytes.length 49 ∧ t.sweeps = rest ∧
      t = { s with lb := t.lb, wp := t.wp, sweeps := t.sweeps })

/-- R62: an empty read changes nothing, neither in `POLL` nor in the `SVC` that runs it, and "the renderer still completes
a full cycle": 3074 steps after the `SVC` the duty array is as it was, and the position is the start of the next cycle, or
the service window if `K` is 1. -/
def Obligations.EmptyReadChangesNothing : Prop :=
  (∀ s : State, (takeSweep s).1 = [] → (poll s).1 = .noUpdate ∧ exec .poll s = .next { s with sweeps := s.sweeps.tail }) ∧
  (∀ s : State, s.positionLegal = true → s.phase = .service → s.presented = [] → s.writes = [] → (takeSweep s).1 = [] →
    step s = .next { s with sweeps := s.sweeps.tail, phase := firstReset s.cfg } ∧
    ∃ t : State, Sys2Proof.core.run (1 + 3074) s = .next t ∧ t.duty = s.duty ∧ t.lb = s.lb ∧ t.wp = s.wp ∧
      t.x = 0#8 ∧ t.i = .c2 ∧
      ((1 < s.cfg.K ∧ t.phase = firstReset s.cfg ∧ t.z = 1) ∨ (s.cfg.K = 1 ∧ t.phase = .service ∧ t.z = 0)))

/-- The option `LINE_OVERFLOW_POLICY = reject_line`: a sweep of more than 49 bytes is taken and dropped whole (decision
D10; that nothing of it is stored is the model's choice, log entry 11). -/
def Obligations.RejectedSweepDropped : Prop :=
  ∀ (s : State) (bytes : List Byte) (rest : List (List Byte)), s.sweeps = bytes :: rest →
    s.cfg.lineOverflow = .rejectLine → 49 < bytes.length →
    (poll s).1 = .noUpdate ∧ exec .poll s = .next { s with sweeps := rest }

/-- Cutting a line into fields (30_encoding.md section 2): the fields joined by commas are the line, there is one more
than there are commas, and no other comma-free fields join to the line. -/
def Obligations.FieldsCutAtCommas : Prop :=
  ∀ line : List Byte,
    [0x2C#8].intercalate (splitFields line) = line ∧ (splitFields line).length = line.count 0x2C#8 + 1 ∧
    ∀ fs : List (List Byte), fs ≠ [] → (∀ f ∈ fs, 0x2C#8 ∉ f) → [0x2C#8].intercalate fs = line → fs = splitFields line

/-- R46: the value of a field is that of its leading digit run, the leftmost digit the most significant, no more than
65535; leading zeros change nothing; without a leading digit it is 0; the tail is ignored. -/
def Obligations.FieldValueOfDigitRun : Prop :=
  (∀ ds tail : List Byte, (∀ d ∈ ds, isDigit d = true) → startsWithDigit tail = false →
    (fieldValue (ds ++ tail)).toNat =
      min (∑ k : Fin ds.length, ((ds.get k).toNat - 0x30) * 10 ^ (ds.length - 1 - k.val)) 65535) ∧
  (∀ (n : Nat) (f : List Byte), fieldValue (List.replicate n 0x30#8 ++ f) = fieldValue f) ∧
  (∀ f : List Byte, startsWithDigit f = false → fieldValue f = 0#16)

/-- R55: a field is outside the defined subset exactly if it has no leading digit and is white space, then at most one
sign, then a digit and anything; an update with such a field among those that count is refused, under the parameter value
`FIELD_PREFIX = refuse`. -/
def Obligations.DefinedSubsetOfFields : Prop :=
  (∀ f : List Byte, outsideSubset f = true ↔ startsWithDigit f = false ∧
    ∃ ws sg rest : List Byte, f = ws ++ sg ++ rest ∧ (∀ b ∈ ws, isSpace b = true) ∧ sg.length ≤ 1 ∧
      (∀ b ∈ sg, isSign b = true) ∧ startsWithDigit rest = true) ∧
  (∀ (s : State) (bytes : List Byte), bytes ≠ [] → rejectsSweep s.cfg bytes = false → s.cfg.fieldPrefix = .refuse →
    (∃ f ∈ writtenFields s.cfg (sweepLine bytes), outsideSubset f = true) →
    exec (.line bytes) s = .refused .fieldPrefix)

/-- R67, under this hardware's parser parameters: `UPDATE` parses the bytes before the first 0x00. If one of the first
twelve fields is outside the defined subset it is refused. Otherwise it completes: it is the duty writes `2 + k`, value of
field `k`, for the fields `k` below 12 in ascending order; entry `2 + k` holds the value of field `k`, every other entry and
all other state is unchanged. -/
def Obligations.UpdateParsesTheLine : Prop :=
  encode .update = .m 0x02#8 ∧
  ∀ (s : State) (n : LinePos) (line : List Byte), LineAt s.lb n line → s.cfg.fieldPrefix = .refuse →
    s.cfg.emptyField = .zero → s.cfg.fieldOverflow = .saturate →
    ((∃ f ∈ (splitFields line).take 12, outsideSubset f = true) → exec .update s = .refused .fieldPrefix) ∧
    ((∀ f ∈ (splitFields line).take 12, outsideSubset f = false) →
      exec .update s = ((splitFields line).take 12).zipIdx.foldl
        (fun o p => andThen o (exec (.dwr (BitVec.ofNat 4 (2 + p.2)) (fieldValue p.1)))) (.next s) ∧
      ∃ t : State, exec .update s = .next t ∧ (∀ c : Channel, dutyRead t c = entryAfter s (splitFields line) c) ∧
        t.duty[0] = s.duty[0] ∧ t.duty[1] = s.duty[1] ∧ t = { s with duty := t.duty })

/-- `UPDATE` in every configuration (decisions D12 to D14): if the verdict on the line is none it completes and writes the
numbered fields, and nothing else; otherwise it is refused by the verdict's name. What is numbered: all fields under `zero`,
those of at least one character under `skip`. Of the first twelve numbered: one outside the defined subset is refused under
`FIELD_PREFIX = refuse`; else one of more than 65535 is refused under `FIELD_OVERFLOW = refuse`; else it completes. That the
prefix verdict comes first is the model's choice (log entry 10), that the tests look at the first twelve that remain under
`skip` is its inference (log entry 12). -/
def Obligations.UpdateUnderEveryPolicy : Prop :=
  (∀ (s : State) (fields : List Field),
    (s.cfg.emptyField = .zero ∧ fields = splitFields s.lb.line ∨
      s.cfg.emptyField = .skip ∧ fields = (splitFields s.lb.line).filter fun f => decide (f ≠ [])) →
    let prefixRefused := s.cfg.fieldPrefix = .refuse ∧ ∃ f ∈ fields.take 12, outsideSubset f = true
    let overflowRefused := s.cfg.fieldOverflow = .refuse ∧ ∃ f ∈ fields.take 12, 65535 < decOf (digitRun f)
    (prefixRefused → exec .update s = .refused .fieldPrefix) ∧
    (¬prefixRefused → overflowRefused → exec .update s = .refused .fieldOverflow) ∧
    (¬prefixRefused → ¬overflowRefused → ∃ t : State, exec .update s = .next t ∧
      (∀ c : Channel, dutyRead t c = entryAfter s fields c) ∧
      t.duty[0] = s.duty[0] ∧ t.duty[1] = s.duty[1] ∧ t = { s with duty := t.duty })) ∧
  ∀ s : State,
    (lineVerdict s.cfg s.lb.line = none →
      ∃ t : State, exec .update s = .next t ∧
        (∀ c : Channel, dutyRead t c = entryAfter s (lineFields s.cfg s.lb.line) c) ∧
        t.duty[0] = s.duty[0] ∧ t.duty[1] = s.duty[1] ∧ t = { s with duty := t.duty }) ∧
    (∀ r, lineVerdict s.cfg s.lb.line = some r → exec .update s = .refused r) ∧
    (s.cfg.fieldPrefix = .strict → s.cfg.fieldOverflow = .saturate → lineVerdict s.cfg s.lb.line = none)

/-- R30, R71: `DWR` completes in every state; the entry of a channel's index takes the value whole and no other entry
changes; an index of none (0, 1, 14, 15) changes nothing; `UPDATE`'s indices are never of that kind. -/
def Obligations.DutyWriteEffect : Prop :=
  (∀ (idx : DutyIndex) (val : DutyValue) (s : State), ∃ t : State, exec (.dwr idx val) s = .next t ∧
    (∀ c : Channel, dutyRead t c = if c.num = idx.toNat then val else dutyRead s c) ∧
    t.duty[0] = s.duty[0] ∧ t.duty[1] = s.duty[1] ∧ t = { s with duty := t.duty } ∧
    (idx.toNat < 2 ∨ 13 < idx.toNat → t = s)) ∧
  (∀ k : Nat, k < 12 → ∃ c : Channel, channelOfIndex (BitVec.ofNat 4 (2 + k)) = some c ∧ c.num = 2 + k)

/-- R72: `LBCLR`, word 0x03, makes every position 0x00 and the fill pointer 0 and changes nothing else; and the buffer is
so cleared after every update that `SVC` parses. -/
def Obligations.LineBufferCleared : Prop :=
  encode .lbclr = .m 0x03#8 ∧
  (∀ s : State, ∃ t : State, exec .lbclr s = .next t ∧ (∀ a : LinePos, t.lb.read a = 0x00#8) ∧ t.wp = 0 ∧
    t = { s with lb := t.lb, wp := t.wp }) ∧
  (∀ s t : State, (poll s).1 = .updateAvailable → exec .svc s = .next t →
    (∀ a : LinePos, t.lb.read a = 0x00#8) ∧ t.wp = 0)

/-- R75: the service procedure, the body of `SVC` where no duty write has arrived by itself, is `POLL`, and if it reports an
update `UPDATE` and then `LBCLR`, and otherwise nothing else; `SVC` then goes to the first port reset. -/
def Obligations.ServiceRunsPollUpdateClear : Prop :=
  (∀ s : State, arrivedWrites s.writes = [] → (poll s).1 = .updateAvailable →
    exec .svc s = andThen (exec .poll s) fun a => andThen (exec .update a) fun b => andThen (exec .lbclr b) fun c =>
      .next { c with phase := firstReset s.cfg }) ∧
  (∀ s : State, arrivedWrites s.writes = [] → (poll s).1 = .noUpdate →
    exec .svc s = andThen (exec .poll s) fun a => .next { a with phase := firstReset s.cfg })

/-- The order within one `SVC`, in every state: `POLL`, if it reports an update `UPDATE` and `LBCLR`, then the duty writes that
have arrived by themselves, then the phase of the first port reset. That the arrived writes come after the update is the
model's choice (log entry 4): the spec gives no order for both in one `SVC`. -/
def Obligations.UpdateBeforeArrivedWrites : Prop :=
  (∀ s : State, (poll s).1 = .updateAvailable →
    exec .svc s = andThen (exec .poll s) fun a => andThen (exec .update a) fun b => andThen (exec .lbclr b) fun c =>
      .next { landWrites c with phase := firstReset s.cfg }) ∧
  (∀ s : State, (poll s).1 = .noUpdate →
    exec .svc s = andThen (exec .poll s) fun a => .next { landWrites a with phase := firstReset s.cfg })

/-- One `SVC` with an accepted update, from sweep to duty array (40_update_frontend.md sections 2 and 3,
41_cycle_controller.md section 2): it completes; the entries take the values of the fields of the first 49 bytes up to the
first 0x00; the buffer is clear; ports, counters and everything else hold, and the phase is that of the first port
reset. -/
def Obligations.SvcAppliesTheUpdate : Prop :=
  ∀ (s : State) (bytes : List Byte) (rest : List (List Byte)), s.sweeps = bytes :: rest → bytes ≠ [] →
    rejectsSweep s.cfg bytes = false → lineVerdict s.cfg (sweepLine bytes) = none → arrivedWrites s.writes = [] →
    ∃ t : State, exec .svc s = .next t ∧
      (∀ c : Channel, dutyRead t c = entryAfter s (lineFields s.cfg (sweepLine bytes)) c) ∧
      t = { s with duty := t.duty, lb := [], wp := 0, sweeps := rest, phase := firstReset s.cfg }

/-- `SVC` without an update performs the duty writes that have arrived at the write port, each as `DWR`, in list order, and
goes to the first port reset (41_cycle_controller.md section 2; the write port is log entry 4). -/
def Obligations.SvcPerformsArrivedWrites : Prop :=
  ∀ (s : State) (ws : List (BitVec 20)) (later : List (Nat × BitVec 20)), (poll s).1 = .noUpdate →
    s.writes = ws.map (fun w => (0, w)) ++ later → (∀ p ∈ later.head?, p.1 ≠ 0) →
    exec .svc s = andThen
      (ws.foldl (fun o w => andThen o (exec (.dwr (w.extractLsb' 16 4) (w.extractLsb' 0 16))))
        (.next { (poll s).2 with writes := later }))
      fun t => .next { t with phase := firstReset s.cfg }

/-- A format T line is one update (30_encoding.md section 2, log entry 6): it completes where its verdict is none, with the
duty writes of its fields and a clear buffer; and it does what `SVC` does with the same bytes as its sweep, but for the
position. -/
def Obligations.LineIsOneUpdate : Prop :=
  (∀ (s : State) (bytes : List Byte), bytes ≠ [] → rejectsSweep s.cfg bytes = false →
    lineVerdict s.cfg (sweepLine bytes) = none →
    ∃ t : State, exec (.line bytes) s = .next t ∧
      (∀ c : Channel, dutyRead t c = entryAfter s (lineFields s.cfg (sweepLine bytes)) c) ∧
      t = { s with duty := t.duty, lb := [], wp := 0 }) ∧
  (∀ (s : State) (bytes : List Byte) (rest : List (List Byte)), s.sweeps = bytes :: rest → s.writes = [] →
    exec .svc s = andThen (exec (.line bytes) { s with sweeps := rest }) fun t =>
      .next { t with phase := firstReset s.cfg })

/-! ## The engine -/

/-- R80, R81: `RSTD` (0x10) and `RSTB` (0x11) are what the sequencer selects in their phases, `RSTD` the first of a cycle;
each completes, as the `PSET` of its port and the move to the next phase: it makes its port 0xFF and its lines high whatever
they were, moves no other line and writes nothing else; for a configuration with this hardware's port bytes and reset
order. -/
def Obligations.PerCyclePortReset : Prop :=
  encode .rstd = .m 0x10#8 ∧ encode .rstb = .m 0x11#8 ∧
  (∀ s : State, (selectWord s = 0x10#8 ↔ s.phase = .rstd) ∧ (selectWord s = 0x11#8 ↔ s.phase = .rstb)) ∧
  (∀ s : State, s.cfg.standardEngine = true →
    firstReset s.cfg = .rstd ∧
    exec .rstd s = .next { s with pd := 0xFF#8, phase := .rstb } ∧
    exec .rstb s = .next { s with pb := 0xFF#8, phase := .cmp } ∧
    exec .rstd s = andThen (exec (psetOf .pd) s) (fun t => .next { t with phase := .rstb }) ∧
    exec .rstb s = andThen (exec (psetOf .pb) s) (fun t => .next { t with phase := .cmp }) ∧
    (∀ c : Channel, ({ s with pd := 0xFF#8, phase := .rstb } : State).out c = if c.num < 8 then true else s.out c) ∧
    (∀ c : Channel, ({ s with pb := 0xFF#8, phase := .cmp } : State).out c = if 8 ≤ c.num then true else s.out c))

/-- The port resets in every configuration (decisions D3 and D4): the port takes its all-high byte, the phase is the next
in the order of the resets, and a legal configuration raises every line of the port. -/
def Obligations.PortResetUnderEveryOption : Prop :=
  ∀ s : State,
    exec .rstd s = .next { s with pd := s.cfg.allHighPd, phase := if s.cfg.prstOrder = .dThenB then .rstb else .cmp } ∧
    exec .rstb s = .next { s with pb := s.cfg.allHighPb, phase := if s.cfg.prstOrder = .dThenB then .cmp else .rstd } ∧
    (s.cfg.wf = true → ∀ (c : Channel) (t : State), exec .rstd s = .next t → c.num < 8 → t.out c = true) ∧
    (s.cfg.wf = true → ∀ (c : Channel) (t : State), exec .rstb s = .next t → 8 ≤ c.num → t.out c = true)

/-- R31: `PSET p` completes and sets all eight bits of its port, in one write that does not depend on the old value; the
other port and all else is unchanged. The byte is 0xFF, the value of this hardware. -/
def Obligations.PortSetOperation : Prop :=
  ∀ (s : State) (p : PortSel), allHigh s.cfg p = 0xFF#8 →
    ∃ t : State, exec (psetOf p) s = .next t ∧ t.port p = 0xFF#8 ∧ (∀ b : BitPos, (t.port p).getLsbD b.val = true) ∧
      (∀ q : PortSel, q ≠ p → t.port q = s.port q) ∧ t = { s with pd := t.pd, pb := t.pb } ∧
      ∀ v : Byte, exec (psetOf p) (s.setPort p v) = .next t

/-- R32: `PortClrBit(p, b)` makes bit `b` of the port 0 and leaves its other seven bits, the other port and all else; on a
bit that is 0 it changes nothing; the engine calls it only with `PD` and a bit in [2,8) or `PB` and a bit in [0,6); and
`PCLR map(c)` completes as that primitive. -/
def Obligations.PortClearOperation : Prop :=
  (∀ (s : State) (p q : PortSel) (b n : BitPos),
    ((portClrBit s p b).port q).getLsbD n.val = ((s.port q).getLsbD n.val && !decide (p = q ∧ b = n))) ∧
  (∀ (s : State) (p : PortSel) (b : BitPos), (s.port p).getLsbD b.val = false → portClrBit s p b = s) ∧
  (∀ (s : State) (p : PortSel) (b : BitPos),
    portClrBit s p b = { s with pd := (portClrBit s p b).pd, pb := (portClrBit s p b).pb }) ∧
  (∀ c : Channel, ((portMap c).1 = .pd ∧ 2 ≤ (portMap c).2.val) ∨ ((portMap c).1 = .pb ∧ (portMap c).2.val < 6)) ∧
  (∀ (s : State) (c : Channel), exec (pclrOf c) s = .next (portClrBit s (portMap c).1 (portMap c).2))

/-- R93: the port mapper's table, that no two channels share a bit, and the bits it leaves out; and R8's output line. -/
def Obligations.PortMapperTable : Prop :=
  (∀ c : Channel, (c.num < 8 → (portMap c).1 = .pd ∧ (portMap c).2.val = c.num) ∧
    (8 ≤ c.num → (portMap c).1 = .pb ∧ (portMap c).2.val = c.num - 8)) ∧
  (∀ c d : Channel, portMap c = portMap d → c = d) ∧
  (∀ (p : PortSel) (b : BitPos), (∃ c, portMap c = (p, b)) ↔
    ¬((p, b) = (.pd, 0) ∨ (p, b) = (.pd, 1) ∨ (p, b) = (.pb, 6) ∨ (p, b) = (.pb, 7))) ∧
  (∀ (s : State) (c : Channel), s.out c = if c.num < 8 then s.pd.getLsbD c.num else s.pb.getLsbD (c.num - 8))

/-- R94: `CMP c`, word `0x20 + c`, completes; it clears bit `map(c)` exactly if the 16-bit duty value equals the
zero-extended level, and writes no other bit of a port, no duty entry and nothing of the front-end. -/
def Obligations.CompareClearsOnEquality : Prop :=
  ∀ (s : State) (c : Channel), encode (cmpOf c) = .m (0x20#8 + BitVec.ofNat 8 c.num) ∧
    ∃ t : State, exec (cmpOf c) s = .next t ∧
      (∀ (p : PortSel) (b : BitPos), (t.port p).getLsbD b.val =
        ((s.port p).getLsbD b.val && !decide (dutyRead s c = zext16 s.x ∧ portMap c = (p, b)))) ∧
      t = { s with pd := t.pd, pb := t.pb, phase := t.phase, z := t.z, x := t.x, i := t.i }

/-- The counter updates of `CMP c` (41_cycle_controller.md section 4): the next channel; after channel 13 the next level;
after level 255 the next cycle of the burst, or the service window after the last. In a run `c` is the channel counter and
the phase is `CMP`; that in any other state `CMP c` counts on from `c` is the model's choice (log entry 7). -/
def Obligations.CompareAdvancesCounters : Prop :=
  ∀ (s : State) (c : Channel), ∃ t : State, exec (cmpOf c) s = .next t ∧
    (c ≠ .c13 → t.i.num = c.num + 1 ∧ t.x = s.x ∧ t.z = s.z ∧ t.phase = s.phase) ∧
    (c = .c13 → t.i = .c2 ∧
      (s.x.toNat < 255 → t.x.toNat = s.x.toNat + 1 ∧ t.z = s.z ∧ t.phase = s.phase) ∧
      (s.x.toNat = 255 → t.x = 0#8 ∧
        (s.z + 1 < s.cfg.K → t.z = s.z + 1 ∧ t.phase = firstReset s.cfg) ∧
        (s.cfg.K ≤ s.z + 1 → t.z = 0 ∧ t.phase = .service)))

/-- R96: the comparator looks at all 16 bits: it matches exactly if the upper byte is 0 and the lower byte is the level; a
duty value of 256 or more matches no level, so no `CMP` clears its line. -/
def Obligations.LargeDutyNeverMatches : Prop :=
  (∀ (s : State) (c : Channel), dutyMatches s c = true ↔
    (dutyRead s c).extractLsb' 8 8 = 0#8 ∧ (dutyRead s c).extractLsb' 0 8 = s.x) ∧
  (∀ (s : State) (c : Channel) (x : Level), 256 ≤ (dutyRead s c).toNat → dutyMatches { s with x := x } c = false) ∧
  (∀ (s t : State) (c d : Channel), 256 ≤ (dutyRead s c).toNat → exec (cmpOf d) s = .next t → t.out c = s.out c)

/-- The micro-operation is a function of the position alone, and no data changes which one comes next (the spec's own
inference in 41_cycle_controller.md section 1): two states at one position, whatever their duty values, ports and buffers,
select the same word, and their engine steps lead to one position. -/
def Obligations.MicroopsIndependentOfData : Prop :=
  ∀ s t : State, SamePosition s t → selectWord s = selectWord t ∧
    (s.cfg.K = t.cfg.K → s.cfg.prstOrder = t.cfg.prstOrder → s.engineTurn → t.engineTurn →
      ∀ s' t' : State, step s = .next s' → step t = .next t' → SamePosition s' t')

/-- The engine never reads a port (20_memory.md section 2): two states that differ in the ports only have engine steps that
end alike and differ in the ports only. -/
def Obligations.PortsNeverRead : Prop :=
  ∀ (s : State) (d b : Byte), s.engineTurn →
    (∀ t : State, step s = .next t → ∃ u : State, step { s with pd := d, pb := b } = .next u ∧
      u = { t with pd := u.pd, pb := u.pb }) ∧
    (∀ r : Refusal, step s = .refused r → step { s with pd := d, pb := b } = .refused r)

/-- The waveform of a channel depends on its own duty entry alone (the spec's own inference in 42_comparator_toggle.md
section 4): two states at one position that agree in the entry and the line of channel `c` agree in that line after the
engine's step. -/
def Obligations.ChannelsIndependent : Prop :=
  ∀ (s t s' t' : State) (c : Channel), s.cfg = t.cfg → SamePosition s t → dutyRead s c = dutyRead t c → s.out c = t.out c →
    s.engineTurn → t.engineTurn → step s = .next s' → step t = .next t' → s'.out c = t'.out c

/-- A line moves for one reason only (the spec's own inference in 42_comparator_toggle.md section 3): it goes low only by a
compare of its own channel that finds its duty value equal to the level, and goes high only by the reset of its port. -/
def Obligations.LineMovesOnlyByItsOwnCause : Prop :=
  ∀ (s t : State) (c : Channel), s.cfg.wf = true → s.presented = [] → step s = .next t →
    (s.out c = true → t.out c = false → s.phase = .cmp ∧ s.i = c ∧ dutyRead s c = zext16 s.x) ∧
    (s.out c = false → t.out c = true →
      (s.phase = .rstd ∧ (portMap c).1 = .pd) ∨ (s.phase = .rstb ∧ (portMap c).1 = .pb))

/-- Two lines move in one step only together, upward, by the reset of their common port (the spec's own inference in
42_comparator_toggle.md section 2 and 70_reset_and_hazards.md section 3). -/
def Obligations.LinesNeverFallTogether : Prop :=
  ∀ (s t : State) (c d : Channel), s.cfg.wf = true → s.presented = [] → step s = .next t → c ≠ d →
    s.out c ≠ t.out c → s.out d ≠ t.out d →
    (portMap c).1 = (portMap d).1 ∧ t.out c = true ∧ t.out d = true ∧ (s.phase = .rstd ∨ s.phase = .rstb)

/-- The division of rights between host and engine (60_exceptions.md section 4): the host's operations write no port and no
part of the position; the engine's write no duty entry and nothing of the front-end, `SVC` itself no port and no counter;
port operations write a port and nothing else. -/
def Obligations.RightsOfHostAndEngine : Prop :=
  ∀ s t : State,
    ((exec .poll s = .next t ∨ exec .update s = .next t ∨ exec .lbclr s = .next t ∨
        (∃ idx val, exec (.dwr idx val) s = .next t) ∨ (∃ bytes, exec (.line bytes) s = .next t)) →
      t.pd = s.pd ∧ t.pb = s.pb ∧ SamePosition t s) ∧
    ((exec .rstd s = .next t ∨ exec .rstb s = .next t ∨ ∃ c, exec (cmpOf c) s = .next t) →
      t.duty = s.duty ∧ t.lb = s.lb ∧ t.wp = s.wp ∧ t.sweeps = s.sweeps ∧ t.writes = s.writes) ∧
    (exec .svc s = .next t → t.pd = s.pd ∧ t.pb = s.pb ∧ t.z = s.z ∧ t.x = s.x ∧ t.i = s.i) ∧
    (((∃ p, exec (psetOf p) s = .next t) ∨ ∃ c, exec (pclrOf c) s = .next t) → t = { s with pd := t.pd, pb := t.pb })

/-- R23: `K` is a constant: 3 on this hardware, at least 1 in every legal configuration, and no step changes it or any
other part of the configuration. -/
def Obligations.ConfigurationConstant : Prop :=
  Config.hardware.K = 3 ∧ (∀ c : Config, c.wf = true → 1 ≤ c.K) ∧ Config.hardware.wf = true ∧
  (∀ (i : Instr) (s t : State), exec i s = .next t → t.cfg = s.cfg) ∧
  (∀ s t : State, step s = .next t → t.cfg = s.cfg)

/-- R12: duty entries 0 and 1 are 0 at reset; no operation and no step writes them; no operation reads them: with other
values in them it ends alike and leaves all else the same; no channel has their index, and a duty write that names one is
dropped. -/
def Obligations.ReservedEntriesUntouched : Prop :=
  (∀ (cfg : Config) (d b : Byte) (sw : List (List Byte)) (ws : List (Nat × BitVec 20)),
    (State.powerUp cfg d b sw ws).duty[0] = 0#16 ∧ (State.powerUp cfg d b sw ws).duty[1] = 0#16) ∧
  (∀ (i : Instr) (s t : State), exec i s = .next t → t.duty[0] = s.duty[0] ∧ t.duty[1] = s.duty[1]) ∧
  (∀ s t : State, step s = .next t → t.duty[0] = s.duty[0] ∧ t.duty[1] = s.duty[1]) ∧
  (∀ (i : Instr) (s : State) (v w : DutyValue), exec i { s with duty := (s.duty.set 0 v).set 1 w } =
    andThen (exec i s) fun t => .next { t with duty := (t.duty.set 0 v).set 1 w }) ∧
  (∀ c : Channel, 2 ≤ c.num) ∧
  (∀ (s : State) (v : DutyValue), exec (.dwr 0 v) s = .next s ∧ exec (.dwr 1 v) s = .next s)

/-! ## When duty writes land -/

/-- The write window (20_memory.md section 5): under `service_only` no step outside the service phase changes a duty entry;
under `any_step` a word that has arrived is written whole before the engine goes on, in whatever phase it is, and moves
neither a line nor the position. -/
def Obligations.HostWriteWindow : Prop :=
  (∀ s t : State, s.presented = [] → s.cfg.hostWriteWindow = .serviceOnly → s.phase ≠ .service → step s = .next t →
    t.duty = s.duty) ∧
  (∀ (s : State) (w : BitVec 20) (r : List (Nat × BitVec 20)), s.presented = [] → s.cfg.hostWriteWindow = .anyStep →
    s.writes = (0, w) :: r → ∃ t : State, step s = .next t ∧
      (∀ c : Channel, dutyRead t c = if c.num = (w.extractLsb' 16 4).toNat then w.extractLsb' 0 16 else dutyRead s c) ∧
      t = { s with duty := t.duty, writes := r })

/-- A duty value that changes inside a cycle (the spec's own inference in 42_comparator_toggle.md section 2): in phase `CMP`
a low line stays low; and whether a line will be low at the end of the cycle is settled by its level now and by whether
the duty value that stands now is one of the levels still to be compared: every compare of the cycle keeps that, and after
the last the line is low exactly if it said so. -/
def Obligations.MidCycleDutyDecidesTheLine : Prop :=
  ∀ (s t : State) (c : Channel), s.engineTurn → s.phase = .cmp → step s = .next t →
    (s.out c = false → t.out c = false) ∧
    (t.phase = .cmp → (t.endsLow c ↔ s.endsLow c)) ∧
    (t.phase ≠ .cmp → (t.out c = false ↔ s.endsLow c))

/-! ## Reset -/

/-- R26: the value of every piece of state after reset; the two port registers take any value. -/
def Obligations.ResetValues : Prop :=
  (∀ (cfg : Config) (d b : Byte) (sw : List (List Byte)) (ws : List (Nat × BitVec 20)),
    let s := State.powerUp cfg d b sw ws
    (∀ c : Channel, dutyRead s c = 0#16) ∧ s.duty[0] = 0#16 ∧ s.duty[1] = 0#16 ∧ s.pd = d ∧ s.pb = b ∧
    s.phase = .service ∧ s.z = 0 ∧ s.x = 0#8 ∧ s.i.num = 2 ∧ (∀ a : LinePos, s.lb.read a = 0x00#8) ∧ s.wp = 0) ∧
  (∃ d b : Byte, State.reset = State.powerUp Config.hardware d b [] []) ∧
  (∀ s t : State, step s = .next t → t.duty[0] = s.duty[0] ∧ t.duty[1] = s.duty[1])

/-- The first steps after reset (the spec's own inference in 70_reset_and_hazards.md section 1): whatever the port registers
held, after three steps both are 0xFF and `CMP 2` at level 0 is next. -/
def Obligations.FirstStepsAfterReset : Prop :=
  ∀ (cfg : Config) (d b : Byte) (sw : List (List Byte)), cfg.standardEngine = true →
    (State.powerUp cfg d b sw []).sweepAccepted →
    ∃ t : State, Sys2Proof.core.run 3 (State.powerUp cfg d b sw []) = .next t ∧ t.pd = 0xFF#8 ∧ t.pb = 0xFF#8 ∧
      t.phase = .cmp ∧ t.z = 0 ∧ t.x = 0#8 ∧ t.i = .c2

/-- The invariant holds at power-up of every legal configuration, whatever the ports hold and whatever input comes. -/
def Obligations.PowerUpMeetsTheInvariant : Prop :=
  State.reset.Inv ∧
  ∀ (cfg : Config) (d b : Byte) (sw : List (List Byte)) (ws : List (Nat × BitVec 20)), cfg.wf = true →
    (State.powerUp cfg d b sw ws).Inv

/-! ## Invariants and whole runs -/

/-- Every step keeps the invariant: legal configuration and position, canonical line space that ends in 0x00, reserved duty
entries 0, no engine word presented. -/
def Obligations.StepKeepsTheInvariant : Prop :=
  ∀ s t : State, s.Inv → step s = .next t → t.Inv

/-- Every step of the hardware leaves the front-end at rest: the line buffer all 0x00 and the fill pointer 0
(40_update_frontend.md section 2), and no word presented. -/
def Obligations.StepLeavesFrontEndAtRest : Prop :=
  ∀ s t : State, s.frontEndRests → step s = .next t → t.frontEndRests

/-- Two canonical line spaces with the same contents are equal: equal contents are equal data (20_memory.md section 1). -/
def Obligations.EqualContentsEqualLineSpace : Prop :=
  ∀ m n : Memory, m.wf = true → n.wf = true → (∀ a : LinePos, m.read a = n.read a) → m = n

/-- The engine never stops (41_cycle_controller.md section 1): on its turn it has a next state, outside the service phase
always and in it whenever the sweep has a meaning; a landing duty write has one; and with the options `strict` and
`saturate` every step of the hardware has one. -/
def Obligations.EngineNeverStops : Prop :=
  (∀ s : State, s.engineTurn → s.phase ≠ .service ∨ s.sweepAccepted → ∃ t : State, step s = .next t) ∧
  (∀ s : State, s.presented = [] → ¬s.engineTurn → ∃ t : State, step s = .next t) ∧
  (∀ s : State, s.presented = [] → s.cfg.fieldPrefix = .strict → s.cfg.fieldOverflow = .saturate →
    ∃ t : State, step s = .next t)

/-- What can end a step (60_exceptions.md section 1): no fault ever; with no word presented only a service window whose
sweep has no meaning, under the parameter value that says so; with one, a word that is no operation, or one that parses a
line without meaning. -/
def Obligations.OnlyNamedVerdicts : Prop :=
  ∀ s : State, (∀ r, step s ≠ .fault r) ∧
    ∀ r, step s = .refused r →
      (s.presented = [] → s.phase = .service ∧ ¬s.sweepAccepted) ∧
      ((r = .fieldPrefix ∧ s.cfg.fieldPrefix = .refuse) ∨ (r = .fieldOverflow ∧ s.cfg.fieldOverflow = .refuse) ∨
        ∃ f rest, s.presented = f :: rest ∧ ∃ e, decode f = .error e ∧ r = refusalOf e)

/-- An engine step moves to the next step number of the iteration, and from its last back to 0 (the spec's own inference in
41_cycle_controller.md section 4). -/
def Obligations.StepAdvancesIteration : Prop :=
  ∀ s t : State, s.positionLegal = true → s.engineTurn → step s = .next t →
    t.positionLegal = true ∧ t.iterStep = (s.iterStep + 1) % iterLength s.cfg

/-- The legal positions are exactly the step numbers of one iteration: every number below `1 + 3074 * K` is that of one
position and of no other, `K` being at least 1 (the spec's own inference in 41_cycle_controller.md section 1). -/
def Obligations.PositionsAreStepNumbers : Prop :=
  (∀ s : State, s.positionLegal = true → s.iterStep < iterLength s.cfg) ∧
  (∀ s t : State, s.positionLegal = true → t.positionLegal = true → s.cfg = t.cfg → s.iterStep = t.iterStep →
    SamePosition s t) ∧
  (∀ (cfg : Config) (n : Nat), 1 ≤ cfg.K → n < iterLength cfg →
    ∃ t : State, t.cfg = cfg ∧ t.positionLegal = true ∧ t.iterStep = n)

/-- One iteration (the spec's own inference in 41_cycle_controller.md section 4): `1 + 3074 * K` steps from the service
window with an accepted sweep lead back to the service window, with the duty array that the `SVC` left. -/
def Obligations.IterationReturnsToService : Prop :=
  ∀ s : State, s.positionLegal = true → s.phase = .service → s.engineAlone → s.sweepAccepted →
    ∃ t u : State, Sys2Proof.core.run (iterLength s.cfg) s = .next t ∧ exec .svc s = .next u ∧ SamePosition t s ∧
      t.cfg = s.cfg ∧ t.duty = u.duty

/-- The lines follow the duty values through every step of the hardware under `service_only` (the spec's own inference in
42_comparator_toggle.md section 2): in phase `CMP` a line is low exactly if a compare of this cycle was at the level equal
to its duty value. -/
def Obligations.LinesFollowDutyValues : Prop :=
  ∀ s t : State, s.Inv → s.presented = [] → s.cfg.hostWriteWindow = .serviceOnly → s.Waveform → step s = .next t →
    t.Inv ∧ t.presented = [] ∧ t.cfg.hostWriteWindow = .serviceOnly ∧ t.Waveform

/-- The whole waveform of a cycle, by steps (the spec's own inference in 42_comparator_toggle.md section 2): from the start
of any cycle of this hardware's engine, after step `n` of the cycle has completed, the line of channel `c` with duty value
`d` is high exactly if `n < 12 * d + c`, from its port's reset on; the duty array has not changed. For `d >= 256` that is
every step of the cycle. -/
def Obligations.CycleWaveform : Prop :=
  ∀ s : State, s.cfg.standardEngine = true → s.engineAlone → s.positionLegal = true → s.phase = .rstd →
    ∀ n : Nat, n < 3074 → ∃ t : State, Sys2Proof.core.run (n + 1) s = .next t ∧ t.duty = s.duty ∧
      ∀ c : Channel, (c.num < 8 ∨ 1 ≤ n) → t.out c = decide (n < 12 * (dutyRead s c).toNat + c.num)
end

