-- ==== Sys2Proof/Laws/State.lean ====
section
/-! SUPPORT. What every operation leaves unchanged, one lemma per field, and how the accessors read back: the simp set of
the state, so that no later proof unfolds a record update. -/

namespace Sys2Proof.Machine

/-! ## The port accessors -/

@[simp] theorem port_pd (s : State) : s.port .pd = s.pd := rfl
@[simp] theorem port_pb (s : State) : s.port .pb = s.pb := rfl

theorem port_setPort (s : State) (p q : PortSel) (v : Byte) :
    (s.setPort p v).port q = if p = q then v else s.port q := by
  cases p <;> cases q <;> rfl

@[simp] theorem port_setPort_same (s : State) (p : PortSel) (v : Byte) : (s.setPort p v).port p = v := by
  cases p <;> rfl

/-- Two states with the same ports have the same lines. -/
theorem out_congr {s t : State} (hd : s.pd = t.pd) (hb : s.pb = t.pb) (c : Channel) : s.out c = t.out c := by
  cases c <;> simp [State.out, portMap, hd, hb]

/-! ## setPort -/

@[simp] theorem setPort_cfg (s : State) (p : PortSel) (v : Byte) : (s.setPort p v).cfg = s.cfg := by cases p <;> rfl
@[simp] theorem setPort_duty (s : State) (p : PortSel) (v : Byte) : (s.setPort p v).duty = s.duty := by cases p <;> rfl
@[simp] theorem setPort_phase (s : State) (p : PortSel) (v : Byte) : (s.setPort p v).phase = s.phase := by cases p <;> rfl
@[simp] theorem setPort_z (s : State) (p : PortSel) (v : Byte) : (s.setPort p v).z = s.z := by cases p <;> rfl
@[simp] theorem setPort_x (s : State) (p : PortSel) (v : Byte) : (s.setPort p v).x = s.x := by cases p <;> rfl
@[simp] theorem setPort_i (s : State) (p : PortSel) (v : Byte) : (s.setPort p v).i = s.i := by cases p <;> rfl
@[simp] theorem setPort_lb (s : State) (p : PortSel) (v : Byte) : (s.setPort p v).lb = s.lb := by cases p <;> rfl
@[simp] theorem setPort_wp (s : State) (p : PortSel) (v : Byte) : (s.setPort p v).wp = s.wp := by cases p <;> rfl
@[simp] theorem setPort_sweeps (s : State) (p : PortSel) (v : Byte) : (s.setPort p v).sweeps = s.sweeps := by cases p <;> rfl
@[simp] theorem setPort_writes (s : State) (p : PortSel) (v : Byte) : (s.setPort p v).writes = s.writes := by cases p <;> rfl
@[simp] theorem setPort_presented (s : State) (p : PortSel) (v : Byte) : (s.setPort p v).presented = s.presented := by cases p <;> rfl

/-! ## portSetAll -/

@[simp] theorem portSetAll_cfg (s : State) (p : PortSel) : (portSetAll s p).cfg = s.cfg := setPort_cfg s p _
@[simp] theorem portSetAll_duty (s : State) (p : PortSel) : (portSetAll s p).duty = s.duty := setPort_duty s p _
@[simp] theorem portSetAll_phase (s : State) (p : PortSel) : (portSetAll s p).phase = s.phase := setPort_phase s p _
@[simp] theorem portSetAll_z (s : State) (p : PortSel) : (portSetAll s p).z = s.z := setPort_z s p _
@[simp] theorem portSetAll_x (s : State) (p : PortSel) : (portSetAll s p).x = s.x := setPort_x s p _
@[simp] theorem portSetAll_i (s : State) (p : PortSel) : (portSetAll s p).i = s.i := setPort_i s p _
@[simp] theorem portSetAll_lb (s : State) (p : PortSel) : (portSetAll s p).lb = s.lb := setPort_lb s p _
@[simp] theorem portSetAll_wp (s : State) (p : PortSel) : (portSetAll s p).wp = s.wp := setPort_wp s p _
@[simp] theorem portSetAll_sweeps (s : State) (p : PortSel) : (portSetAll s p).sweeps = s.sweeps := setPort_sweeps s p _
@[simp] theorem portSetAll_writes (s : State) (p : PortSel) : (portSetAll s p).writes = s.writes := setPort_writes s p _
@[simp] theorem portSetAll_presented (s : State) (p : PortSel) : (portSetAll s p).presented = s.presented := setPort_presented s p _

/-! ## portClrBit -/

@[simp] theorem portClrBit_cfg (s : State) (p : PortSel) (b : BitPos) : (portClrBit s p b).cfg = s.cfg := setPort_cfg s p _
@[simp] theorem portClrBit_duty (s : State) (p : PortSel) (b : BitPos) : (portClrBit s p b).duty = s.duty := setPort_duty s p _
@[simp] theorem portClrBit_phase (s : State) (p : PortSel) (b : BitPos) : (portClrBit s p b).phase = s.phase := setPort_phase s p _
@[simp] theorem portClrBit_z (s : State) (p : PortSel) (b : BitPos) : (portClrBit s p b).z = s.z := setPort_z s p _
@[simp] theorem portClrBit_x (s : State) (p : PortSel) (b : BitPos) : (portClrBit s p b).x = s.x := setPort_x s p _
@[simp] theorem portClrBit_i (s : State) (p : PortSel) (b : BitPos) : (portClrBit s p b).i = s.i := setPort_i s p _
@[simp] theorem portClrBit_lb (s : State) (p : PortSel) (b : BitPos) : (portClrBit s p b).lb = s.lb := setPort_lb s p _
@[simp] theorem portClrBit_wp (s : State) (p : PortSel) (b : BitPos) : (portClrBit s p b).wp = s.wp := setPort_wp s p _
@[simp] theorem portClrBit_sweeps (s : State) (p : PortSel) (b : BitPos) : (portClrBit s p b).sweeps = s.sweeps := setPort_sweeps s p _
@[simp] theorem portClrBit_writes (s : State) (p : PortSel) (b : BitPos) : (portClrBit s p b).writes = s.writes := setPort_writes s p _
@[simp] theorem portClrBit_presented (s : State) (p : PortSel) (b : BitPos) : (portClrBit s p b).presented = s.presented := setPort_presented s p _

/-! ## compareChannel -/

@[simp] theorem compareChannel_cfg (s : State) (c : Channel) : (compareChannel s c).cfg = s.cfg := by unfold compareChannel; split <;> simp
@[simp] theorem compareChannel_duty (s : State) (c : Channel) : (compareChannel s c).duty = s.duty := by unfold compareChannel; split <;> simp
@[simp] theorem compareChannel_phase (s : State) (c : Channel) : (compareChannel s c).phase = s.phase := by unfold compareChannel; split <;> simp
@[simp] theorem compareChannel_z (s : State) (c : Channel) : (compareChannel s c).z = s.z := by unfold compareChannel; split <;> simp
@[simp] theorem compareChannel_x (s : State) (c : Channel) : (compareChannel s c).x = s.x := by unfold compareChannel; split <;> simp
@[simp] theorem compareChannel_i (s : State) (c : Channel) : (compareChannel s c).i = s.i := by unfold compareChannel; split <;> simp
@[simp] theorem compareChannel_lb (s : State) (c : Channel) : (compareChannel s c).lb = s.lb := by unfold compareChannel; split <;> simp
@[simp] theorem compareChannel_wp (s : State) (c : Channel) : (compareChannel s c).wp = s.wp := by unfold compareChannel; split <;> simp
@[simp] theorem compareChannel_sweeps (s : State) (c : Channel) : (compareChannel s c).sweeps = s.sweeps := by unfold compareChannel; split <;> simp
@[simp] theorem compareChannel_writes (s : State) (c : Channel) : (compareChannel s c).writes = s.writes := by unfold compareChannel; split <;> simp
@[simp] theorem compareChannel_presented (s : State) (c : Channel) : (compareChannel s c).presented = s.presented := by unfold compareChannel; split <;> simp

/-! ## dutyWrite -/

@[simp] theorem dutyWrite_cfg (s : State) (c : Channel) (v : DutyValue) : (dutyWrite s c v).cfg = s.cfg := rfl
@[simp] theorem dutyWrite_pd (s : State) (c : Channel) (v : DutyValue) : (dutyWrite s c v).pd = s.pd := rfl
@[simp] theorem dutyWrite_pb (s : State) (c : Channel) (v : DutyValue) : (dutyWrite s c v).pb = s.pb := rfl
@[simp] theorem dutyWrite_phase (s : State) (c : Channel) (v : DutyValue) : (dutyWrite s c v).phase = s.phase := rfl
@[simp] theorem dutyWrite_z (s : State) (c : Channel) (v : DutyValue) : (dutyWrite s c v).z = s.z := rfl
@[simp] theorem dutyWrite_x (s : State) (c : Channel) (v : DutyValue) : (dutyWrite s c v).x = s.x := rfl
@[simp] theorem dutyWrite_i (s : State) (c : Channel) (v : DutyValue) : (dutyWrite s c v).i = s.i := rfl
@[simp] theorem dutyWrite_lb (s : State) (c : Channel) (v : DutyValue) : (dutyWrite s c v).lb = s.lb := rfl
@[simp] theorem dutyWrite_wp (s : State) (c : Channel) (v : DutyValue) : (dutyWrite s c v).wp = s.wp := rfl
@[simp] theorem dutyWrite_sweeps (s : State) (c : Channel) (v : DutyValue) : (dutyWrite s c v).sweeps = s.sweeps := rfl
@[simp] theorem dutyWrite_writes (s : State) (c : Channel) (v : DutyValue) : (dutyWrite s c v).writes = s.writes := rfl
@[simp] theorem dutyWrite_presented (s : State) (c : Channel) (v : DutyValue) : (dutyWrite s c v).presented = s.presented := rfl

/-! ## dutyStore -/

@[simp] theorem dutyStore_cfg (s : State) (idx : DutyIndex) (v : DutyValue) : (dutyStore s idx v).cfg = s.cfg := by unfold dutyStore; split <;> rfl
@[simp] theorem dutyStore_pd (s : State) (idx : DutyIndex) (v : DutyValue) : (dutyStore s idx v).pd = s.pd := by unfold dutyStore; split <;> rfl
@[simp] theorem dutyStore_pb (s : State) (idx : DutyIndex) (v : DutyValue) : (dutyStore s idx v).pb = s.pb := by unfold dutyStore; split <;> rfl
@[simp] theorem dutyStore_phase (s : State) (idx : DutyIndex) (v : DutyValue) : (dutyStore s idx v).phase = s.phase := by unfold dutyStore; split <;> rfl
@[simp] theorem dutyStore_z (s : State) (idx : DutyIndex) (v : DutyValue) : (dutyStore s idx v).z = s.z := by unfold dutyStore; split <;> rfl
@[simp] theorem dutyStore_x (s : State) (idx : DutyIndex) (v : DutyValue) : (dutyStore s idx v).x = s.x := by unfold dutyStore; split <;> rfl
@[simp] theorem dutyStore_i (s : State) (idx : DutyIndex) (v : DutyValue) : (dutyStore s idx v).i = s.i := by unfold dutyStore; split <;> rfl
@[simp] theorem dutyStore_lb (s : State) (idx : DutyIndex) (v : DutyValue) : (dutyStore s idx v).lb = s.lb := by unfold dutyStore; split <;> rfl
@[simp] theorem dutyStore_wp (s : State) (idx : DutyIndex) (v : DutyValue) : (dutyStore s idx v).wp = s.wp := by unfold dutyStore; split <;> rfl
@[simp] theorem dutyStore_sweeps (s : State) (idx : DutyIndex) (v : DutyValue) : (dutyStore s idx v).sweeps = s.sweeps := by unfold dutyStore; split <;> rfl
@[simp] theorem dutyStore_writes (s : State) (idx : DutyIndex) (v : DutyValue) : (dutyStore s idx v).writes = s.writes := by unfold dutyStore; split <;> rfl
@[simp] theorem dutyStore_presented (s : State) (idx : DutyIndex) (v : DutyValue) : (dutyStore s idx v).presented = s.presented := by unfold dutyStore; split <;> rfl

/-! ## writeFields -/

@[simp] theorem writeFields_cfg (s : State) (k : Nat) (fs : List Field) : (writeFields s k fs).cfg = s.cfg := by
  induction fs generalizing s k with
  | nil => rfl
  | cons f fs ih => rw [writeFields, ih]; split <;> simp
@[simp] theorem writeFields_pd (s : State) (k : Nat) (fs : List Field) : (writeFields s k fs).pd = s.pd := by
  induction fs generalizing s k with
  | nil => rfl
  | cons f fs ih => rw [writeFields, ih]; split <;> simp
@[simp] theorem writeFields_pb (s : State) (k : Nat) (fs : List Field) : (writeFields s k fs).pb = s.pb := by
  induction fs generalizing s k with
  | nil => rfl
  | cons f fs ih => rw [writeFields, ih]; split <;> simp
@[simp] theorem writeFields_phase (s : State) (k : Nat) (fs : List Field) : (writeFields s k fs).phase = s.phase := by
  induction fs generalizing s k with
  | nil => rfl
  | cons f fs ih => rw [writeFields, ih]; split <;> simp
@[simp] theorem writeFields_z (s : State) (k : Nat) (fs : List Field) : (writeFields s k fs).z = s.z := by
  induction fs generalizing s k with
  | nil => rfl
  | cons f fs ih => rw [writeFields, ih]; split <;> simp
@[simp] theorem writeFields_x (s : State) (k : Nat) (fs : List Field) : (writeFields s k fs).x = s.x := by
  induction fs generalizing s k with
  | nil => rfl
  | cons f fs ih => rw [writeFields, ih]; split <;> simp
@[simp] theorem writeFields_i (s : State) (k : Nat) (fs : List Field) : (writeFields s k fs).i = s.i := by
  induction fs generalizing s k with
  | nil => rfl
  | cons f fs ih => rw [writeFields, ih]; split <;> simp
@[simp] theorem writeFields_lb (s : State) (k : Nat) (fs : List Field) : (writeFields s k fs).lb = s.lb := by
  induction fs generalizing s k with
  | nil => rfl
  | cons f fs ih => rw [writeFields, ih]; split <;> simp
@[simp] theorem writeFields_wp (s : State) (k : Nat) (fs : List Field) : (writeFields s k fs).wp = s.wp := by
  induction fs generalizing s k with
  | nil => rfl
  | cons f fs ih => rw [writeFields, ih]; split <;> simp
@[simp] theorem writeFields_sweeps (s : State) (k : Nat) (fs : List Field) : (writeFields s k fs).sweeps = s.sweeps := by
  induction fs generalizing s k with
  | nil => rfl
  | cons f fs ih => rw [writeFields, ih]; split <;> simp
@[simp] theorem writeFields_writes (s : State) (k : Nat) (fs : List Field) : (writeFields s k fs).writes = s.writes := by
  induction fs generalizing s k with
  | nil => rfl
  | cons f fs ih => rw [writeFields, ih]; split <;> simp
@[simp] theorem writeFields_presented (s : State) (k : Nat) (fs : List Field) : (writeFields s k fs).presented = s.presented := by
  induction fs generalizing s k with
  | nil => rfl
  | cons f fs ih => rw [writeFields, ih]; split <;> simp

/-! ## storeWords -/

@[simp] theorem storeWords_cfg (s : State) (ws : List (BitVec 20)) : (storeWords s ws).cfg = s.cfg := by
  unfold storeWords
  induction ws generalizing s with
  | nil => rfl
  | cons w ws ih => rw [List.foldl_cons, ih]; simp
@[simp] theorem storeWords_pd (s : State) (ws : List (BitVec 20)) : (storeWords s ws).pd = s.pd := by
  unfold storeWords
  induction ws generalizing s with
  | nil => rfl
  | cons w ws ih => rw [List.foldl_cons, ih]; simp
@[simp] theorem storeWords_pb (s : State) (ws : List (BitVec 20)) : (storeWords s ws).pb = s.pb := by
  unfold storeWords
  induction ws generalizing s with
  | nil => rfl
  | cons w ws ih => rw [List.foldl_cons, ih]; simp
@[simp] theorem storeWords_phase (s : State) (ws : List (BitVec 20)) : (storeWords s ws).phase = s.phase := by
  unfold storeWords
  induction ws generalizing s with
  | nil => rfl
  | cons w ws ih => rw [List.foldl_cons, ih]; simp
@[simp] theorem storeWords_z (s : State) (ws : List (BitVec 20)) : (storeWords s ws).z = s.z := by
  unfold storeWords
  induction ws generalizing s with
  | nil => rfl
  | cons w ws ih => rw [List.foldl_cons, ih]; simp
@[simp] theorem storeWords_x (s : State) (ws : List (BitVec 20)) : (storeWords s ws).x = s.x := by
  unfold storeWords
  induction ws generalizing s with
  | nil => rfl
  | cons w ws ih => rw [List.foldl_cons, ih]; simp
@[simp] theorem storeWords_i (s : State) (ws : List (BitVec 20)) : (storeWords s ws).i = s.i := by
  unfold storeWords
  induction ws generalizing s with
  | nil => rfl
  | cons w ws ih => rw [List.foldl_cons, ih]; simp
@[simp] theorem storeWords_lb (s : State) (ws : List (BitVec 20)) : (storeWords s ws).lb = s.lb := by
  unfold storeWords
  induction ws generalizing s with
  | nil => rfl
  | cons w ws ih => rw [List.foldl_cons, ih]; simp
@[simp] theorem storeWords_wp (s : State) (ws : List (BitVec 20)) : (storeWords s ws).wp = s.wp := by
  unfold storeWords
  induction ws generalizing s with
  | nil => rfl
  | cons w ws ih => rw [List.foldl_cons, ih]; simp
@[simp] theorem storeWords_sweeps (s : State) (ws : List (BitVec 20)) : (storeWords s ws).sweeps = s.sweeps := by
  unfold storeWords
  induction ws generalizing s with
  | nil => rfl
  | cons w ws ih => rw [List.foldl_cons, ih]; simp
@[simp] theorem storeWords_writes (s : State) (ws : List (BitVec 20)) : (storeWords s ws).writes = s.writes := by
  unfold storeWords
  induction ws generalizing s with
  | nil => rfl
  | cons w ws ih => rw [List.foldl_cons, ih]; simp
@[simp] theorem storeWords_presented (s : State) (ws : List (BitVec 20)) : (storeWords s ws).presented = s.presented := by
  unfold storeWords
  induction ws generalizing s with
  | nil => rfl
  | cons w ws ih => rw [List.foldl_cons, ih]; simp

/-! ## landWrites -/

@[simp] theorem landWrites_cfg (s : State) : (landWrites s).cfg = s.cfg := by simp [landWrites]
@[simp] theorem landWrites_pd (s : State) : (landWrites s).pd = s.pd := by simp [landWrites]
@[simp] theorem landWrites_pb (s : State) : (landWrites s).pb = s.pb := by simp [landWrites]
@[simp] theorem landWrites_phase (s : State) : (landWrites s).phase = s.phase := by simp [landWrites]
@[simp] theorem landWrites_z (s : State) : (landWrites s).z = s.z := by simp [landWrites]
@[simp] theorem landWrites_x (s : State) : (landWrites s).x = s.x := by simp [landWrites]
@[simp] theorem landWrites_i (s : State) : (landWrites s).i = s.i := by simp [landWrites]
@[simp] theorem landWrites_lb (s : State) : (landWrites s).lb = s.lb := by simp [landWrites]
@[simp] theorem landWrites_wp (s : State) : (landWrites s).wp = s.wp := by simp [landWrites]
@[simp] theorem landWrites_sweeps (s : State) : (landWrites s).sweeps = s.sweeps := by simp [landWrites]
@[simp] theorem landWrites_presented (s : State) : (landWrites s).presented = s.presented := by simp [landWrites]

/-! ## clearLine -/

@[simp] theorem clearLine_cfg (s : State) : (clearLine s).cfg = s.cfg := rfl
@[simp] theorem clearLine_duty (s : State) : (clearLine s).duty = s.duty := rfl
@[simp] theorem clearLine_pd (s : State) : (clearLine s).pd = s.pd := rfl
@[simp] theorem clearLine_pb (s : State) : (clearLine s).pb = s.pb := rfl
@[simp] theorem clearLine_phase (s : State) : (clearLine s).phase = s.phase := rfl
@[simp] theorem clearLine_z (s : State) : (clearLine s).z = s.z := rfl
@[simp] theorem clearLine_x (s : State) : (clearLine s).x = s.x := rfl
@[simp] theorem clearLine_i (s : State) : (clearLine s).i = s.i := rfl
@[simp] theorem clearLine_sweeps (s : State) : (clearLine s).sweeps = s.sweeps := rfl
@[simp] theorem clearLine_writes (s : State) : (clearLine s).writes = s.writes := rfl
@[simp] theorem clearLine_presented (s : State) : (clearLine s).presented = s.presented := rfl

/-! ## takeSweep -/

@[simp] theorem takeSweep_cfg (s : State) : ((takeSweep s).2).cfg = s.cfg := by unfold takeSweep; split <;> rfl
@[simp] theorem takeSweep_duty (s : State) : ((takeSweep s).2).duty = s.duty := by unfold takeSweep; split <;> rfl
@[simp] theorem takeSweep_pd (s : State) : ((takeSweep s).2).pd = s.pd := by unfold takeSweep; split <;> rfl
@[simp] theorem takeSweep_pb (s : State) : ((takeSweep s).2).pb = s.pb := by unfold takeSweep; split <;> rfl
@[simp] theorem takeSweep_phase (s : State) : ((takeSweep s).2).phase = s.phase := by unfold takeSweep; split <;> rfl
@[simp] theorem takeSweep_z (s : State) : ((takeSweep s).2).z = s.z := by unfold takeSweep; split <;> rfl
@[simp] theorem takeSweep_x (s : State) : ((takeSweep s).2).x = s.x := by unfold takeSweep; split <;> rfl
@[simp] theorem takeSweep_i (s : State) : ((takeSweep s).2).i = s.i := by unfold takeSweep; split <;> rfl
@[simp] theorem takeSweep_lb (s : State) : ((takeSweep s).2).lb = s.lb := by unfold takeSweep; split <;> rfl
@[simp] theorem takeSweep_wp (s : State) : ((takeSweep s).2).wp = s.wp := by unfold takeSweep; split <;> rfl
@[simp] theorem takeSweep_writes (s : State) : ((takeSweep s).2).writes = s.writes := by unfold takeSweep; split <;> rfl
@[simp] theorem takeSweep_presented (s : State) : ((takeSweep s).2).presented = s.presented := by unfold takeSweep; split <;> rfl

/-! ## pollSweep -/

@[simp] theorem pollSweep_cfg (s : State) (bytes : List Byte) : ((pollSweep s bytes).2).cfg = s.cfg := by unfold pollSweep; split <;> rfl
@[simp] theorem pollSweep_duty (s : State) (bytes : List Byte) : ((pollSweep s bytes).2).duty = s.duty := by unfold pollSweep; split <;> rfl
@[simp] theorem pollSweep_pd (s : State) (bytes : List Byte) : ((pollSweep s bytes).2).pd = s.pd := by unfold pollSweep; split <;> rfl
@[simp] theorem pollSweep_pb (s : State) (bytes : List Byte) : ((pollSweep s bytes).2).pb = s.pb := by unfold pollSweep; split <;> rfl
@[simp] theorem pollSweep_phase (s : State) (bytes : List Byte) : ((pollSweep s bytes).2).phase = s.phase := by unfold pollSweep; split <;> rfl
@[simp] theorem pollSweep_z (s : State) (bytes : List Byte) : ((pollSweep s bytes).2).z = s.z := by unfold pollSweep; split <;> rfl
@[simp] theorem pollSweep_x (s : State) (bytes : List Byte) : ((pollSweep s bytes).2).x = s.x := by unfold pollSweep; split <;> rfl
@[simp] theorem pollSweep_i (s : State) (bytes : List Byte) : ((pollSweep s bytes).2).i = s.i := by unfold pollSweep; split <;> rfl
@[simp] theorem pollSweep_sweeps (s : State) (bytes : List Byte) : ((pollSweep s bytes).2).sweeps = s.sweeps := by unfold pollSweep; split <;> rfl
@[simp] theorem pollSweep_writes (s : State) (bytes : List Byte) : ((pollSweep s bytes).2).writes = s.writes := by unfold pollSweep; split <;> rfl
@[simp] theorem pollSweep_presented (s : State) (bytes : List Byte) : ((pollSweep s bytes).2).presented = s.presented := by unfold pollSweep; split <;> rfl

/-! ## poll -/

@[simp] theorem poll_cfg (s : State) : ((poll s).2).cfg = s.cfg := by simp [poll]
@[simp] theorem poll_duty (s : State) : ((poll s).2).duty = s.duty := by simp [poll]
@[simp] theorem poll_pd (s : State) : ((poll s).2).pd = s.pd := by simp [poll]
@[simp] theorem poll_pb (s : State) : ((poll s).2).pb = s.pb := by simp [poll]
@[simp] theorem poll_phase (s : State) : ((poll s).2).phase = s.phase := by simp [poll]
@[simp] theorem poll_z (s : State) : ((poll s).2).z = s.z := by simp [poll]
@[simp] theorem poll_x (s : State) : ((poll s).2).x = s.x := by simp [poll]
@[simp] theorem poll_i (s : State) : ((poll s).2).i = s.i := by simp [poll]
@[simp] theorem poll_writes (s : State) : ((poll s).2).writes = s.writes := by simp [poll]
@[simp] theorem poll_presented (s : State) : ((poll s).2).presented = s.presented := by simp [poll]

/-! ## advance -/

@[simp] theorem advance_cfg (s : State) (c : Channel) : (advance s c).cfg = s.cfg := by
  unfold advance; split <;> [rfl; (split <;> [rfl; (split <;> rfl)])]
@[simp] theorem advance_duty (s : State) (c : Channel) : (advance s c).duty = s.duty := by
  unfold advance; split <;> [rfl; (split <;> [rfl; (split <;> rfl)])]
@[simp] theorem advance_pd (s : State) (c : Channel) : (advance s c).pd = s.pd := by
  unfold advance; split <;> [rfl; (split <;> [rfl; (split <;> rfl)])]
@[simp] theorem advance_pb (s : State) (c : Channel) : (advance s c).pb = s.pb := by
  unfold advance; split <;> [rfl; (split <;> [rfl; (split <;> rfl)])]
@[simp] theorem advance_lb (s : State) (c : Channel) : (advance s c).lb = s.lb := by
  unfold advance; split <;> [rfl; (split <;> [rfl; (split <;> rfl)])]
@[simp] theorem advance_wp (s : State) (c : Channel) : (advance s c).wp = s.wp := by
  unfold advance; split <;> [rfl; (split <;> [rfl; (split <;> rfl)])]
@[simp] theorem advance_sweeps (s : State) (c : Channel) : (advance s c).sweeps = s.sweeps := by
  unfold advance; split <;> [rfl; (split <;> [rfl; (split <;> rfl)])]
@[simp] theorem advance_writes (s : State) (c : Channel) : (advance s c).writes = s.writes := by
  unfold advance; split <;> [rfl; (split <;> [rfl; (split <;> rfl)])]
@[simp] theorem advance_presented (s : State) (c : Channel) : (advance s c).presented = s.presented := by
  unfold advance; split <;> [rfl; (split <;> [rfl; (split <;> rfl)])]

/-! ## What the updates write -/

@[simp] theorem landWrites_writes (s : State) : (landWrites s).writes = laterWrites s.writes := by simp [landWrites]
@[simp] theorem clearLine_lb (s : State) : (clearLine s).lb = [] := rfl
@[simp] theorem clearLine_wp (s : State) : (clearLine s).wp = 0 := rfl
@[simp] theorem takeSweep_sweeps (s : State) : (takeSweep s).2.sweeps = s.sweeps.tail := by
  unfold takeSweep; split <;> simp_all
@[simp] theorem poll_sweeps (s : State) : (poll s).2.sweeps = s.sweeps.tail := by simp [poll]
@[simp] theorem portSetAll_port (s : State) (p : PortSel) : (portSetAll s p).port p = allHigh s.cfg p := by
  simp [portSetAll]

/-! ## Outputs that do not move -/

@[simp] theorem out_advance (s : State) (c d : Channel) : (advance s c).out d = s.out d := out_congr (by simp) (by simp) d
@[simp] theorem out_landWrites (s : State) (d : Channel) : (landWrites s).out d = s.out d := out_congr (by simp) (by simp) d
@[simp] theorem out_dutyStore (s : State) (k : DutyIndex) (v : DutyValue) (d : Channel) :
    (dutyStore s k v).out d = s.out d := out_congr (by simp) (by simp) d

end Sys2Proof.Machine
end

