-- ==== Sys2Proof/Laws/Memory.lean ====
section
/-! SUPPORT. The laws of the line space (20_memory.md R28, R40): a read after a write gives the value written, a write
leaves every other position alone, and every write keeps the canonical form. -/

namespace Sys2Proof.Machine

theorem read_nil (a : LinePos) : Memory.read [] a = 0x00#8 := rfl

theorem read_insertCell_same (m : Memory) (a : LinePos) (b : Byte) : (m.insertCell a b).read a = b := by
  induction m with
  | nil => simp [Memory.insertCell, Memory.read]
  | cons c r ih =>
    obtain ⟨k, v⟩ := c
    simp only [Memory.insertCell]
    split
    · have h : k ≠ a.val := by omega
      simp [Memory.read, h, ih]
    · simp [Memory.read]

theorem read_insertCell_other (m : Memory) {a p : LinePos} (h : p ≠ a) (b : Byte) :
    (m.insertCell a b).read p = m.read p := by
  have hv : a.val ≠ p.val := fun e => h (Fin.ext e.symm)
  induction m with
  | nil => simp [Memory.insertCell, Memory.read, hv]
  | cons c r ih =>
    obtain ⟨k, v⟩ := c
    simp only [Memory.insertCell]
    split <;> simp [Memory.read, ih, hv]

theorem read_remove_same (m : Memory) (a : LinePos) :
    Memory.read (m.filter fun c => c.1 != a.val) a = 0x00#8 := by
  induction m with
  | nil => rfl
  | cons c r ih =>
    obtain ⟨k, v⟩ := c
    by_cases h : k = a.val <;> simp_all [Memory.read]

theorem read_remove_other (m : Memory) {a p : LinePos} (h : p ≠ a) :
    Memory.read (m.filter fun c => c.1 != a.val) p = m.read p := by
  have hv : a.val ≠ p.val := fun e => h (Fin.ext e.symm)
  induction m with
  | nil => rfl
  | cons c r ih =>
    obtain ⟨k, v⟩ := c
    by_cases hk : k = a.val
    · subst hk; simpa [Memory.read, hv] using ih
    · simp [Memory.read, hk, ih]

@[simp] theorem read_write_same (m : Memory) (a : LinePos) (b : Byte) : (m.write a b).read a = b := by
  unfold Memory.write
  split
  · next h => rw [read_remove_same, h]; rfl
  · exact read_insertCell_same _ a b

theorem read_write_other (m : Memory) {a p : LinePos} (h : p ≠ a) (b : Byte) : (m.write a b).read p = m.read p := by
  unfold Memory.write
  split
  · exact read_remove_other m h
  · rw [read_insertCell_other _ h, read_remove_other m h]

theorem read_write (m : Memory) (a p : LinePos) (b : Byte) :
    (m.write a b).read p = if p = a then b else m.read p := by
  split
  · next h => subst h; exact read_write_same m p b
  · next h => exact read_write_other m h b

/-! ## The canonical form -/

theorem wf_iff (m : Memory) :
    m.wf = true ↔ m.Pairwise (fun a b => a.1 < b.1) ∧ ∀ c ∈ m, c.1 < 50 ∧ c.2 ≠ 0x00#8 := by
  simp [Memory.wf, Memory.unlisted]

theorem nil_wf : Memory.wf [] = true := by decide

theorem mem_insertCell {m : Memory} {a : LinePos} {b : Byte} {c : Host.Cell} (h : c ∈ m.insertCell a b) :
    c = (a.val, b) ∨ c ∈ m := by
  induction m with
  | nil => simpa [Memory.insertCell] using h
  | cons d r ih =>
    obtain ⟨k, v⟩ := d
    simp only [Memory.insertCell] at h
    split at h
    · rcases List.mem_cons.1 h with rfl | h
      · simp
      · rcases ih h with h | h <;> simp [h]
    · simpa using h

theorem insertCell_rising {m : Memory} {a : LinePos} {b : Byte} (h : m.Pairwise fun c d => c.1 < d.1)
    (hn : ∀ c ∈ m, c.1 ≠ a.val) : (m.insertCell a b).Pairwise fun c d => c.1 < d.1 := by
  induction m with
  | nil => simp [Memory.insertCell]
  | cons d r ih =>
    obtain ⟨k, v⟩ := d
    obtain ⟨hk, hr⟩ := List.pairwise_cons.1 h
    have hka : k ≠ a.val := hn (k, v) (by simp)
    simp only [Memory.insertCell]
    split
    · next hlt =>
      refine List.pairwise_cons.2 ⟨fun c hc => ?_, ih hr fun c hc => hn c (by simp [hc])⟩
      rcases mem_insertCell hc with rfl | hc
      · exact hlt
      · exact hk c hc
    · next hge =>
      refine List.pairwise_cons.2 ⟨fun c hc => ?_, h⟩
      rcases List.mem_cons.1 hc with rfl | hc
      · show a.val < k; omega
      · have := hk c hc; simp only at this; show a.val < c.1; omega

theorem write_wf {m : Memory} (h : m.wf = true) (a : LinePos) (b : Byte) : (m.write a b).wf = true := by
  obtain ⟨hp, hm⟩ := (wf_iff m).1 h
  have hf : (m.filter fun c => c.1 != a.val).Pairwise fun c d => c.1 < d.1 := hp.filter _
  have hmf : ∀ c ∈ m.filter fun c => c.1 != a.val, c ∈ m ∧ c.1 ≠ a.val := by simp
  unfold Memory.write
  split
  · exact (wf_iff _).2 ⟨hf, fun c hc => hm c (hmf c hc).1⟩
  · next hb =>
    refine (wf_iff _).2 ⟨insertCell_rising hf fun c hc => (hmf c hc).2, fun c hc => ?_⟩
    rcases mem_insertCell hc with rfl | hc
    · exact ⟨a.isLt, hb⟩
    · exact hm c (hmf c hc).1

/-! ## Storing a sweep -/

theorem storeSweep_wf {m : Memory} (h : m.wf = true) (bytes : List Byte) (p : LinePos) :
    (storeSweep bytes m p).1.wf = true := by
  induction bytes generalizing m p with
  | nil => exact h
  | cons b r ih =>
    unfold storeSweep
    split
    · exact ih (write_wf h p b) _
    · exact ih h p

/-- The fill pointer after a sweep that starts at `p`. -/
theorem storeSweep_pointer (bytes : List Byte) (m : Memory) (p : LinePos) :
    (storeSweep bytes m p).2.val = min (p.val + bytes.length) 49 := by
  induction bytes generalizing m p with
  | nil => simp [storeSweep]; omega
  | cons b r ih =>
    unfold storeSweep
    split
    · rw [ih]; simp; omega
    · rw [ih]; simp; omega

/-- What a sweep leaves at a position: the byte that was appended there, or what it held. -/
theorem storeSweep_read (bytes : List Byte) (m : Memory) (p a : LinePos) :
    (storeSweep bytes m p).1.read a =
      if p.val ≤ a.val ∧ a.val < 49 then bytes[a.val - p.val]?.getD (m.read a) else m.read a := by
  induction bytes generalizing m p with
  | nil => simp [storeSweep]
  | cons b r ih =>
    unfold storeSweep
    split
    · next hp =>
      rw [ih, read_write]
      by_cases hpa : p.val = a.val
      · have : a = p := Fin.ext hpa.symm
        subst this
        simp [hp]
      · have hne : a ≠ p := fun e => hpa (by rw [e])
        simp only [hne, if_false]
        by_cases hlt : p.val < a.val ∧ a.val < 49
        · have h1 : p.val + 1 ≤ a.val ∧ a.val < 49 := by omega
          have h2 : p.val ≤ a.val ∧ a.val < 49 := by omega
          have h3 : a.val - p.val = (a.val - (p.val + 1)) + 1 := by omega
          simp only [h1, h2, and_self, if_true]
          rw [h3, List.getElem?_cons_succ]
        · have h1 : ¬(p.val + 1 ≤ a.val ∧ a.val < 49) := by omega
          have h2 : ¬(p.val ≤ a.val ∧ a.val < 49) := by omega
          simp only [h1, h2, if_false]
    · next hp =>
      rw [ih]
      have h1 : ¬(p.val ≤ a.val ∧ a.val < 49) := by omega
      simp only [h1, if_false]

end Sys2Proof.Machine
end

