-- ==== Sys2Proof/Laws/FrontEnd.lean ====
section
/-! SUPPORT. The duty space and the front-end: one lemma for each operation that says what it does. -/

namespace Sys2Proof.Machine

/-! ## Channels -/

theorem Channel.num_inj {c d : Channel} (h : c.num = d.num) : c = d := by
  cases c <;> cases d <;> first | rfl | (exact absurd h (by decide))

theorem channelOfIndex_eq_some (idx : DutyIndex) (c : Channel) :
    channelOfIndex idx = some c ↔ c.num = idx.toNat := by
  constructor
  · intro h
    unfold channelOfIndex at h
    split at h <;> first | (cases h; simp_all [Channel.num]) | cases h
  · intro h
    unfold channelOfIndex
    rw [← h]
    cases c <;> rfl

theorem channelOfIndex_eq_none (idx : DutyIndex) :
    channelOfIndex idx = none ↔ idx.toNat < 2 ∨ 13 < idx.toNat := by
  constructor
  · intro h
    by_contra hn
    have hr : 2 ≤ idx.toNat ∧ idx.toNat < 14 := by omega
    obtain ⟨c, hc⟩ : ∃ c : Channel, c.num = idx.toNat := by
      generalize idx.toNat = n at hr
      obtain ⟨h2, h14⟩ := hr
      interval_cases n
      exacts [⟨.c2, rfl⟩, ⟨.c3, rfl⟩, ⟨.c4, rfl⟩, ⟨.c5, rfl⟩, ⟨.c6, rfl⟩, ⟨.c7, rfl⟩, ⟨.c8, rfl⟩, ⟨.c9, rfl⟩,
        ⟨.c10, rfl⟩, ⟨.c11, rfl⟩, ⟨.c12, rfl⟩, ⟨.c13, rfl⟩]
    rw [(channelOfIndex_eq_some idx c).2 hc] at h
    cases h
  · intro h
    cases hc : channelOfIndex idx with
    | none => rfl
    | some c =>
      have := (channelOfIndex_eq_some idx c).1 hc
      have := c.num_ge
      have := c.num_lt
      omega

/-! ## Duty space -/

@[simp] theorem dutyRead_dutyWrite_same (s : State) (c : Channel) (v : DutyValue) : dutyRead (dutyWrite s c v) c = v := by
  simp [dutyRead, dutyWrite]

theorem dutyRead_dutyWrite (s : State) (c d : Channel) (v : DutyValue) :
    dutyRead (dutyWrite s c v) d = if d = c then v else dutyRead s d := by
  by_cases h : d = c
  · subst h; simp
  · have hn : c.num ≠ d.num := fun e => h (Channel.num_inj e).symm
    simp [dutyRead, dutyWrite, hn, h]

theorem dutyRead_congr {s t : State} (h : s.duty = t.duty) (c : Channel) : dutyRead s c = dutyRead t c := by
  simp [dutyRead, h]

/-- `DWR` writes the entry its index names, and no other. -/
theorem dutyRead_dutyStore (s : State) (idx : DutyIndex) (v : DutyValue) (d : Channel) :
    dutyRead (dutyStore s idx v) d = if d.num = idx.toNat then v else dutyRead s d := by
  unfold dutyStore
  cases hc : channelOfIndex idx with
  | none =>
    have := (channelOfIndex_eq_none idx).1 hc
    have := d.num_ge
    have := d.num_lt
    have hn : ¬d.num = idx.toNat := by omega
    simp [hn]
  | some c =>
    have hn := (channelOfIndex_eq_some idx c).1 hc
    simp only [dutyRead_dutyWrite]
    by_cases h : d = c
    · subst h; simp [hn]
    · have : ¬d.num = idx.toNat := fun e => h (Channel.num_inj (e.trans hn.symm))
      simp [h, this]

/-- No duty write reaches the reserved entries. -/
theorem dutyWrite_reserved (s : State) (c : Channel) (v : DutyValue) :
    (dutyWrite s c v).duty[0] = s.duty[0] ∧ (dutyWrite s c v).duty[1] = s.duty[1] := by
  have := c.num_ge
  constructor <;> simp only [dutyWrite] <;> rw [Vector.getElem_set_ne] <;> omega

theorem dutyStore_reserved (s : State) (idx : DutyIndex) (v : DutyValue) :
    (dutyStore s idx v).duty[0] = s.duty[0] ∧ (dutyStore s idx v).duty[1] = s.duty[1] := by
  unfold dutyStore
  split
  · exact dutyWrite_reserved s _ v
  · exact ⟨rfl, rfl⟩

theorem storeWords_reserved (s : State) (ws : List (BitVec 20)) :
    (storeWords s ws).duty[0] = s.duty[0] ∧ (storeWords s ws).duty[1] = s.duty[1] := by
  unfold storeWords
  induction ws generalizing s with
  | nil => exact ⟨rfl, rfl⟩
  | cons w ws ih =>
    rw [List.foldl_cons]
    exact ⟨(ih _).1.trans (dutyStore_reserved s _ _).1, (ih _).2.trans (dutyStore_reserved s _ _).2⟩

theorem landWrites_reserved (s : State) :
    (landWrites s).duty[0] = s.duty[0] ∧ (landWrites s).duty[1] = s.duty[1] :=
  storeWords_reserved _ _

theorem writeFields_reserved (s : State) (k : Nat) (fs : List Field) :
    (writeFields s k fs).duty[0] = s.duty[0] ∧ (writeFields s k fs).duty[1] = s.duty[1] := by
  induction fs generalizing s k with
  | nil => exact ⟨rfl, rfl⟩
  | cons f fs ih =>
    rw [writeFields]
    have h := ih (if k < Config.maxFields then dutyStore s (BitVec.ofNat 4 (2 + k)) (fieldValue f) else s) (k + 1)
    by_cases hk : k < Config.maxFields
    · simp only [hk, if_true] at h ⊢
      exact ⟨h.1.trans (dutyStore_reserved s _ _).1, h.2.trans (dutyStore_reserved s _ _).2⟩
    · simpa only [hk, if_false] using h

/-- The loop of `UPDATE`: the entry of channel `c` takes the value of field `c - 2`, if the loop reaches that field. -/
theorem dutyRead_writeFields (s : State) (k : Nat) (fs : List Field) (c : Channel) :
    dutyRead (writeFields s k fs) c =
      if k ≤ c.num - 2 then ((fs[c.num - 2 - k]?).map fieldValue).getD (dutyRead s c) else dutyRead s c := by
  have h2 := c.num_ge
  have h14 := c.num_lt
  induction fs generalizing s k with
  | nil => simp [writeFields]
  | cons f fs ih =>
    rw [writeFields, ih]
    by_cases hk : k < Config.maxFields
    · have hk' : k < 12 := hk
      have hidx : (BitVec.ofNat 4 (2 + k)).toNat = 2 + k := by simp; omega
      simp only [hk, if_true, dutyRead_dutyStore, hidx]
      by_cases he : c.num = 2 + k
      · simp [he]
      · simp only [he, if_false]
        by_cases hlt : k + 1 ≤ c.num - 2
        · have h3 : k ≤ c.num - 2 := by omega
          have h4 : c.num - 2 - k = (c.num - 2 - (k + 1)) + 1 := by omega
          simp only [hlt, h3, if_true]
          rw [h4, List.getElem?_cons_succ]
        · have h3 : ¬k ≤ c.num - 2 := by omega
          simp only [hlt, h3, if_false]
    · have hk' : 12 ≤ k := by simpa [Config.maxFields] using hk
      have h1 : ¬k + 1 ≤ c.num - 2 := by omega
      have h3 : ¬k ≤ c.num - 2 := by omega
      simp only [hk, if_false, h1, h3]

/-! ## POLL -/

theorem pollSweep_noUpdate (s : State) (bytes : List Byte) :
    (pollSweep s bytes).1 = .noUpdate ↔ bytes = [] ∨ rejectsSweep s.cfg bytes = true := by
  unfold pollSweep; split <;> simp_all

theorem pollSweep_noUpdate_state {s : State} {bytes : List Byte} (h : (pollSweep s bytes).1 = .noUpdate) :
    (pollSweep s bytes).2 = s := by
  have := (pollSweep_noUpdate s bytes).1 h
  simp [pollSweep, this]

theorem pollSweep_update {s : State} {bytes : List Byte} (h0 : bytes ≠ []) (hr : rejectsSweep s.cfg bytes = false) :
    pollSweep s bytes = (.updateAvailable, { s with
      lb := (storeSweep bytes s.lb 0).1.write (storeSweep bytes s.lb 0).2 0x00#8, wp := (storeSweep bytes s.lb 0).2 }) := by
  simp [pollSweep, h0, hr]

theorem pollSweep_result (s : State) (bytes : List Byte) :
    (pollSweep s bytes).1 = .noUpdate ∨ (pollSweep s bytes).1 = .updateAvailable := by
  cases (pollSweep s bytes).1 <;> simp

/-- What the reader leaves in the buffer: the first 49 bytes of the sweep, the terminator, and beyond it what was there. -/
theorem pollSweep_read {s : State} {bytes : List Byte} (h0 : bytes ≠ []) (hr : rejectsSweep s.cfg bytes = false)
    (a : LinePos) :
    (pollSweep s bytes).2.lb.read a = ((bytes.take 49 ++ [0x00#8])[a.val]?).getD (s.lb.read a) := by
  rw [pollSweep_update h0 hr]
  have hp := storeSweep_pointer bytes s.lb 0
  have hz : ((0 : LinePos).val) = 0 := rfl
  rw [hz, Nat.zero_add] at hp
  simp only [read_write, storeSweep_read, hz]
  by_cases ha : a = (storeSweep bytes s.lb 0).2
  · have hav : a.val = min bytes.length 49 := by rw [ha, hp]
    have hl : (bytes.take 49).length = a.val := by rw [List.length_take, hav]; omega
    simp only [ha, if_true]
    rw [← ha, List.getElem?_append_right (by omega), hl]
    simp
  · have hav : a.val ≠ min bytes.length 49 := fun e => ha (Fin.ext (e.trans hp.symm))
    have hlt := a.isLt
    simp only [ha, if_false, Nat.zero_le, true_and, Nat.sub_zero]
    by_cases hs : a.val < min bytes.length 49
    · have h1 : a.val < 49 := by omega
      rw [List.getElem?_append_left (by rw [List.length_take]; omega), List.getElem?_take_of_lt h1]
      simp [h1]
    · have hnone : (bytes.take 49 ++ [0x00#8])[a.val]? = none := by
        rw [List.getElem?_eq_none_iff]; simp; omega
      rw [hnone]
      split
      · next h1 =>
        have : bytes[a.val]? = none := by rw [List.getElem?_eq_none_iff]; omega
        rw [this]
      · rfl

/-! ## The line in the buffer -/

theorem bytes_getElem? (m : Memory) (k : Nat) : m.bytes[k]? = if h : k < 50 then some (m.read ⟨k, h⟩) else none := by
  unfold Memory.bytes
  by_cases h : k < 50
  · simp [h]
  · simp [h]

/-- A buffer that begins with some bytes and then holds the null sentinel has those bytes' line. -/
theorem line_of_prefix {m : Memory} {l : List Byte} (hlen : l.length < 50)
    (hread : ∀ a : LinePos, a.val < l.length → l[a.val]? = some (m.read a))
    (hend : m.read ⟨l.length, hlen⟩ = 0x00#8) : m.line = l.takeWhile fun b => b != 0x00#8 := by
  have hb : m.bytes = l ++ 0x00#8 :: m.bytes.drop (l.length + 1) := by
    apply List.ext_getElem?
    intro k
    rw [bytes_getElem?]
    rcases Nat.lt_trichotomy k l.length with hk | hk | hk
    · have h50 : k < 50 := by omega
      rw [List.getElem?_append_left hk, dif_pos h50]
      exact (hread ⟨k, h50⟩ hk).symm
    · subst hk
      rw [dif_pos hlen, List.getElem?_append_right (Nat.le_refl _)]
      simp [hend]
    · have h1 : k - l.length = (k - (l.length + 1)) + 1 := by omega
      rw [List.getElem?_append_right (by omega), h1, List.getElem?_cons_succ, List.getElem?_drop, bytes_getElem?]
      have h2 : l.length + 1 + (k - (l.length + 1)) = k := by omega
      rw [h2]
  unfold Memory.line
  rw [hb, List.takeWhile_append]
  split
  · next h => simp [(List.takeWhile_prefix _).eq_of_length h]
  · rfl

/-- The line that the parser sees after `POLL` is the update the reader took. -/
theorem pollSweep_line {s : State} {bytes : List Byte} (h0 : bytes ≠ []) (hr : rejectsSweep s.cfg bytes = false) :
    (pollSweep s bytes).2.lb.line = sweepLine bytes := by
  have hlen : (bytes.take 49).length < 50 := by rw [List.length_take]; omega
  refine line_of_prefix (l := bytes.take 49) hlen (fun a ha => ?_) ?_
  · rw [pollSweep_read h0 hr, List.getElem?_append_left ha, List.getElem?_eq_getElem ha]; rfl
  · rw [pollSweep_read h0 hr, List.getElem?_append_right (Nat.le_refl _)]; simp

theorem pollSweep_wf {s : State} (h : s.lb.wf = true) (bytes : List Byte) : (pollSweep s bytes).2.lb.wf = true := by
  unfold pollSweep
  split
  · exact h
  · exact write_wf (storeSweep_wf h bytes 0) (storeSweep bytes s.lb 0).2 0x00#8

/-- The last position of the buffer stays 0x00 under `POLL`. -/
theorem pollSweep_lineEnds {s : State} (h : s.lb.read 49 = 0x00#8) (bytes : List Byte) :
    (pollSweep s bytes).2.lb.read 49 = 0x00#8 := by
  by_cases hc : bytes = [] ∨ rejectsSweep s.cfg bytes = true
  · simpa [pollSweep, hc] using h
  · have h0 : bytes ≠ [] := fun e => hc (.inl e)
    have hr : rejectsSweep s.cfg bytes = false := by simpa using fun e => hc (.inr e)
    rw [pollSweep_read h0 hr, h]
    cases hx : (bytes.take 49 ++ [0x00#8])[(49 : LinePos).val]? with
    | none => rfl
    | some b =>
      have hl : (bytes.take 49).length ≤ 49 := by rw [List.length_take]; omega
      have h49 : (49 : LinePos).val = 49 := rfl
      rw [h49, List.getElem?_append_right hl] at hx
      have := List.mem_of_getElem? hx
      simpa using this

/-! ## The write port -/

theorem laterWrites_of_none {l : List (Nat × BitVec 20)} (h : arrivedWrites l = []) : laterWrites l = l := by
  cases l with
  | nil => rfl
  | cons a r =>
    obtain ⟨n, w⟩ := a
    cases n with
    | zero => simp [arrivedWrites] at h
    | succ n => rfl

/-- Without an arrived word nothing lands. -/
theorem landWrites_of_none {s : State} (h : arrivedWrites s.writes = []) : landWrites s = s := by
  simp [landWrites, storeWords, h, laterWrites_of_none h]

/-! ## The meanings' cases -/

/-- `UPDATE` refuses what the verdict refuses, and otherwise writes the numbered fields. -/
theorem parseLine_cases (s : State) :
    (∃ r, lineVerdict s.cfg s.lb.line = some r ∧ parseLine s = .refused r) ∨
    (lineVerdict s.cfg s.lb.line = none ∧ parseLine s = .next (writeFields s 0 (lineFields s.cfg s.lb.line))) := by
  unfold parseLine
  cases h : lineVerdict s.cfg s.lb.line with
  | none => exact .inr ⟨rfl, rfl⟩
  | some r => exact .inl ⟨r, rfl, rfl⟩

/-- The service procedure on a sweep: nothing without an update; a refusal where the line has none; otherwise the writes
of the line, and a clear buffer. -/
theorem service_cases (s : State) (bytes : List Byte) :
    ((pollSweep s bytes).1 = .noUpdate ∧ serviceAfterPoll (pollSweep s bytes) = .next s) ∨
    (∃ r, lineVerdict s.cfg (sweepLine bytes) = some r ∧ serviceAfterPoll (pollSweep s bytes) = .refused r) ∨
    ((pollSweep s bytes).1 = .updateAvailable ∧ lineVerdict s.cfg (sweepLine bytes) = none ∧
      serviceAfterPoll (pollSweep s bytes) =
        .next (clearLine (writeFields (pollSweep s bytes).2 0 (lineFields s.cfg (sweepLine bytes))))) := by
  rcases pollSweep_result s bytes with h | h
  · have hs := pollSweep_noUpdate_state h
    have he : pollSweep s bytes = (.noUpdate, s) := Prod.ext h hs
    exact .inl ⟨h, by rw [he]; rfl⟩
  · have hn : ¬(bytes = [] ∨ rejectsSweep s.cfg bytes = true) := fun e => by
      rw [(pollSweep_noUpdate s bytes).2 e] at h; cases h
    have hl := pollSweep_line (s := s) (bytes := bytes) (fun e => hn (.inl e)) (by simpa using fun e => hn (.inr e))
    have he : pollSweep s bytes = (.updateAvailable, (pollSweep s bytes).2) := Prod.ext h rfl
    rcases parseLine_cases (pollSweep s bytes).2 with ⟨r, hv, hp⟩ | ⟨hv, hp⟩
    · rw [hl, pollSweep_cfg] at hv
      exact .inr (.inl ⟨r, hv, by rw [he]; simp [serviceAfterPoll, hp, andThen]⟩)
    · rw [hl, pollSweep_cfg] at hv hp
      refine .inr (.inr ⟨h, hv, ?_⟩)
      conv => lhs; rw [he]
      simp [serviceAfterPoll, hp, andThen]

end Sys2Proof.Machine
end

