-- ==== Sys2Proof/Laws/Engine.lean ====
section
/-! SUPPORT. The engine: what the port primitives, a compare and the counter updates do, once each, and the cases of one
step. -/

namespace Sys2Proof.Machine

/-! ## The port mapper and the lines -/

theorem portMap_inj {c d : Channel} (h : portMap c = portMap d) : c = d := by
  cases c <;> cases d <;> first | rfl | (exact absurd h (by decide))

theorem port_portClrBit (s : State) (p q : PortSel) (b : BitPos) :
    (portClrBit s p b).port q = if p = q then s.port p &&& ~~~(1#8 <<< b.val) else s.port q := by
  simp [portClrBit, port_setPort]

theorem port_portSetAll (s : State) (p q : PortSel) :
    (portSetAll s p).port q = if p = q then allHigh s.cfg p else s.port q := by
  simp [portSetAll, port_setPort]

/-- The cleared bit is 0 and every other bit of both ports is as it was. -/
theorem bit_portClrBit (s : State) (p q : PortSel) (b n : BitPos) :
    ((portClrBit s p b).port q).getLsbD n.val = ((s.port q).getLsbD n.val && !decide (p = q ∧ b = n)) := by
  rw [port_portClrBit]
  by_cases hp : p = q
  · subst hp
    simp only [if_true, BitVec.getLsbD_and, true_and]
    congr 1
    have hn := n.isLt
    by_cases hb : b = n
    · subst hb; simp [hn]
    · have hv : b.val ≠ n.val := fun e => hb (Fin.ext e)
      rcases Nat.lt_or_gt_of_ne hv with h | h
      · have : n.val - b.val ≠ 0 := by omega
        simp [hn, hb, this]
      · simp [hn, hb, h]
  · simp [hp]

theorem out_portClrBit (s : State) (c d : Channel) :
    (portClrBit s (portMap c).1 (portMap c).2).out d = (s.out d && !decide (c = d)) := by
  unfold State.out
  rw [bit_portClrBit]
  congr 2
  by_cases h : c = d
  · simp [h]
  · have : ¬((portMap c).1 = (portMap d).1 ∧ (portMap c).2 = (portMap d).2) := fun e =>
      h (portMap_inj (Prod.ext e.1 e.2))
    simp [h, this]

/-- A compare lowers the line of its own channel on a match and moves no other. -/
theorem out_compareChannel (s : State) (c d : Channel) :
    (compareChannel s c).out d = (s.out d && !(decide (c = d) && dutyMatches s c)) := by
  unfold compareChannel
  by_cases h : dutyMatches s c = true
  · simp [h, out_portClrBit]
  · simp [h]

theorem allHigh_mapped {cfg : Config} (h : cfg.wf = true) (c : Channel) :
    (allHigh cfg (portMap c).1).getLsbD (portMap c).2.val = true := by
  simp only [Config.wf, Bool.and_eq_true, beq_iff_eq, decide_eq_true_eq] at h
  obtain ⟨⟨-, hd⟩, hb⟩ := h
  have key : ∀ (v m : BitVec 8) (n : Nat), v &&& m = m → m.getLsbD n = true → v.getLsbD n = true := by
    intro v m n hv hm
    rw [← hv, BitVec.getLsbD_and] at hm
    simpa using (Bool.and_eq_true_iff.1 hm).1
  cases c <;> simp only [portMap, allHigh] <;>
    first
    | exact key _ _ _ hd (by decide)
    | exact key _ _ _ hb (by decide)

/-- The per-cycle reset raises every line of its port and moves no other. -/
theorem out_portSetAll {s : State} (h : s.cfg.wf = true) (p : PortSel) (c : Channel) :
    (portSetAll s p).out c = if (portMap c).1 = p then true else s.out c := by
  unfold State.out
  rw [port_portSetAll]
  by_cases hp : (portMap c).1 = p
  · subst hp; simpa using allHigh_mapped h c
  · have hp' : p ≠ (portMap c).1 := fun e => hp e.symm
    simp [hp, hp']

theorem dutyMatches_iff (s : State) (c : Channel) : dutyMatches s c = true ↔ (dutyRead s c).toNat = s.x.toNat := by
  unfold dutyMatches zext16
  rw [beq_iff_eq, ← BitVec.toNat_inj, BitVec.toNat_setWidth]
  have := s.x.isLt
  rw [Nat.mod_eq_of_lt (by omega)]

/-! ## The counter updates -/

theorem nextChannel_some {c d : Channel} (h : nextChannel c = some d) : d.num = c.num + 1 := by
  cases c <;> cases h <;> rfl

theorem nextChannel_none {c : Channel} (h : nextChannel c = none) : c = .c13 := by
  cases c <;> first | rfl | cases h

/-- The four ways the counters go on from the compare of a channel (R78, R82 to R84). -/
theorem advance_cases (s : State) (c : Channel) :
    (c.num < 13 ∧ ∃ d, d.num = c.num + 1 ∧ advance s c = { s with i := d }) ∨
    (c = .c13 ∧ s.x.toNat < 255 ∧ advance s c = { s with i := .c2, x := s.x + 1#8 }) ∨
    (c = .c13 ∧ s.x.toNat = 255 ∧ s.z < s.cfg.K - 1 ∧
      advance s c = { s with i := .c2, x := 0#8, z := s.z + 1, phase := firstReset s.cfg }) ∨
    (c = .c13 ∧ s.x.toNat = 255 ∧ s.cfg.K - 1 ≤ s.z ∧
      advance s c = { s with i := .c2, x := 0#8, z := 0, phase := .service }) := by
  have hx := s.x.isLt
  cases hn : nextChannel c with
  | some d =>
    have hd := nextChannel_some hn
    have := d.num_lt
    exact .inl ⟨by omega, d, hd, by simp [advance, hn]⟩
  | none =>
    have hc := nextChannel_none hn
    by_cases h255 : s.x.toNat < 255
    · exact .inr (.inl ⟨hc, h255, by simp [advance, hn, h255]⟩)
    · by_cases hz : s.z < s.cfg.K - 1
      · exact .inr (.inr (.inl ⟨hc, by omega, hz, by simp [advance, hn, h255, hz]⟩))
      · exact .inr (.inr (.inr ⟨hc, by omega, by omega, by simp [advance, hn, h255, hz]⟩))

/-! ## The families of operations -/

theorem exec_cmpOf (c : Channel) (s : State) : exec (cmpOf c) s = .next (advance (compareChannel s c) c) := by
  cases c <;> rfl

theorem exec_psetOf (p : PortSel) (s : State) : exec (psetOf p) s = .next (portSetAll s p) := by
  cases p <;> rfl

theorem exec_pclrOf (c : Channel) (s : State) :
    exec (pclrOf c) s = .next (portClrBit s (portMap c).1 (portMap c).2) := by
  cases c <;> rfl

/-- `SVC`: a refusal of its line, or the service, the arrived writes, and the first reset phase. -/
theorem execSvc_cases (s : State) :
    (∃ r, lineVerdict s.cfg (sweepLine (takeSweep s).1) = some r ∧ exec .svc s = .refused r) ∨
    (s.sweepAccepted ∧ ∃ t, serviceAfterPoll (poll s) = .next t ∧
      exec .svc s = .next { landWrites t with phase := firstReset t.cfg }) := by
  have he : exec .svc s = andThen (serviceAfterPoll (poll s)) fun t =>
    .next { landWrites t with phase := firstReset t.cfg } := rfl
  rcases service_cases (takeSweep s).2 (takeSweep s).1 with ⟨h, hs⟩ | ⟨r, hv, hs⟩ | ⟨h, hv, hs⟩
  · exact .inr ⟨.inl h, _, hs, by rw [he, poll, hs]; rfl⟩
  · rw [takeSweep_cfg] at hv
    exact .inl ⟨r, hv, by rw [he, poll, hs]; rfl⟩
  · rw [takeSweep_cfg] at hv
    exact .inr ⟨.inr hv, _, hs, by rw [he, poll, hs]; rfl⟩

/-- What the service procedure leaves alone when it completes. -/
theorem service_frame {s t : State} {bytes : List Byte} (h : serviceAfterPoll (pollSweep s bytes) = .next t) :
    t.cfg = s.cfg ∧ t.pd = s.pd ∧ t.pb = s.pb ∧ t.phase = s.phase ∧ t.z = s.z ∧ t.x = s.x ∧ t.i = s.i ∧
      t.sweeps = s.sweeps ∧ t.writes = s.writes ∧ t.presented = s.presented ∧
      t.duty[0] = s.duty[0] ∧ t.duty[1] = s.duty[1] := by
  rcases service_cases s bytes with ⟨-, h2⟩ | ⟨r, -, h2⟩ | ⟨-, -, h2⟩ <;> rw [h] at h2 <;> cases h2
  · simp
  · have hr := writeFields_reserved (pollSweep s bytes).2 0 (lineFields s.cfg (sweepLine bytes))
    simp only [pollSweep_duty] at hr
    simp [hr]

/-- The line space after the service procedure: untouched without an update, clear after one. -/
theorem service_line {s t : State} {bytes : List Byte} (h : serviceAfterPoll (pollSweep s bytes) = .next t) :
    (t.lb = s.lb ∧ t.wp = s.wp) ∨ (t.lb = [] ∧ t.wp = 0) := by
  rcases service_cases s bytes with ⟨-, h2⟩ | ⟨r, -, h2⟩ | ⟨-, -, h2⟩ <;> rw [h] at h2 <;> cases h2
  · exact .inl ⟨rfl, rfl⟩
  · exact .inr ⟨rfl, rfl⟩

/-- What the service procedure inside `SVC` leaves alone. -/
theorem serviceOfPoll_frame {s t : State} (h : serviceAfterPoll (poll s) = .next t) :
    t.cfg = s.cfg ∧ t.pd = s.pd ∧ t.pb = s.pb ∧ t.phase = s.phase ∧ t.z = s.z ∧ t.x = s.x ∧ t.i = s.i ∧
      t.sweeps = s.sweeps.tail ∧ t.writes = s.writes ∧ t.presented = s.presented ∧
      t.duty[0] = s.duty[0] ∧ t.duty[1] = s.duty[1] := by
  simpa using service_frame (s := (takeSweep s).2) h

theorem serviceOfPoll_line {s t : State} (h : serviceAfterPoll (poll s) = .next t) :
    (t.lb = s.lb ∧ t.wp = s.wp) ∨ (t.lb = [] ∧ t.wp = 0) := by
  simpa using service_line (s := (takeSweep s).2) h

/-! ## One step -/

/-- The word the sequencer selects is an operation: the one of its position (R86). -/
theorem decode_selectWord (s : State) :
    decode (.m (selectWord s)) = .ok (match s.phase with
      | .service => .svc | .rstd => .rstd | .rstb => .rstb | .cmp => cmpOf s.i) := by
  unfold selectWord
  cases s.phase with
  | service => exact (rfl : decodeM 0x00#8 = .ok .svc)
  | rstd => exact (rfl : decodeM 0x10#8 = .ok .rstd)
  | rstb => exact (rfl : decodeM 0x11#8 = .ok .rstb)
  | cmp => cases s.i <;> rfl

theorem settle_false (o : Host.Outcome State Fault Refusal) : settle false o = o := by
  cases o <;> rfl

/-- On the engine's turn a step runs the operation of the position and counts down the write port. -/
theorem step_engine {s : State} (h : s.engineTurn) :
    step s = settle true (exec (match s.phase with
      | .service => .svc | .rstd => .rstd | .rstb => .rstb | .cmp => cmpOf s.i) s) := by
  have hi : issue s = engineIssue s := by simp [issue, h.1, h.2]
  unfold step
  rw [hi]
  simp only [engineIssue, decode_selectWord]

theorem step_presented {s : State} {f : Frame} {r : List Frame} {i : Instr} (h : s.presented = f :: r)
    (hd : decode f = .ok i) : step s = exec i { s with presented := r } := by
  have hi : issue s = ⟨f, { s with presented := r }, false⟩ := by simp [issue, h]
  unfold step
  rw [hi]
  simp only [hd, settle_false]

theorem step_landing {s : State} {w : BitVec 20} {t : State} (h : s.presented = [])
    (hl : landingWrite s = some (w, t)) :
    step s = .next (dutyStore t (w.extractLsb' 16 4) (w.extractLsb' 0 16)) := by
  have hi : issue s = ⟨.h w, t, false⟩ := by simp [issue, h, hl]
  unfold step
  rw [hi]
  simp only [decode, decodeH, settle_false]
  rfl

/-- Whose step it is: a presented word's, a landing duty write's, or the engine's. -/
theorem turn_cases (s : State) :
    (∃ f r, s.presented = f :: r) ∨ (s.presented = [] ∧ ∃ w t, landingWrite s = some (w, t)) ∨ s.engineTurn := by
  cases hp : s.presented with
  | cons f r => exact .inl ⟨f, r, rfl⟩
  | nil =>
    cases hl : landingWrite s with
    | some q => exact .inr (.inl ⟨rfl, q.1, q.2, rfl⟩)
    | none => exact .inr (.inr ⟨hp, hl⟩)

/-- A duty write that lands leaves the rest of the queue, and nothing else has moved before it is performed. -/
theorem landingWrite_some {s : State} {w : BitVec 20} {t : State} (h : landingWrite s = some (w, t)) :
    s.cfg.hostWriteWindow = .anyStep ∧ ∃ r, s.writes = (0, w) :: r ∧ t = { s with writes := r } := by
  unfold landingWrite at h
  split at h
  · next hw hs => cases h; exact ⟨hw, _, hs, rfl⟩
  · cases h

/-- Everything an engine step can do: the service window, one of the two port resets, or a compare. -/
theorem step_engine_cases {s t : State} (he : s.engineTurn) (h : step s = .next t) :
    (s.phase = .service ∧ ∃ u, serviceAfterPoll (poll s) = .next u ∧
      t = { landWrites u with phase := firstReset u.cfg, writes := tickWrites (landWrites u).writes }) ∨
    (s.phase = .rstd ∧ t = { portSetAll s .pd with phase := phaseAfterRstd s.cfg, writes := tickWrites s.writes }) ∨
    (s.phase = .rstb ∧ t = { portSetAll s .pb with phase := phaseAfterRstb s.cfg, writes := tickWrites s.writes }) ∨
    (s.phase = .cmp ∧ t = { advance (compareChannel s s.i) s.i with writes := tickWrites s.writes }) := by
  rw [step_engine he] at h
  cases hp : s.phase with
  | service =>
    rw [hp] at h
    rcases execSvc_cases s with ⟨r, -, hr⟩ | ⟨-, u, hu, hx⟩
    · rw [hr] at h; cases h
    · rw [hx] at h; cases h; exact .inl ⟨rfl, u, hu, rfl⟩
  | rstd =>
    rw [hp] at h
    exact .inr (.inl ⟨rfl, (Host.Outcome.next.inj h).symm.trans (by simp)⟩)
  | rstb =>
    rw [hp] at h
    exact .inr (.inr (.inl ⟨rfl, (Host.Outcome.next.inj h).symm.trans (by simp)⟩))
  | cmp =>
    rw [hp] at h
    simp only [exec_cmpOf] at h
    exact .inr (.inr (.inr ⟨rfl, (Host.Outcome.next.inj h).symm.trans (by simp)⟩))

theorem engineTurn_of_alone {s : State} (h : s.engineAlone) : s.engineTurn := by
  refine ⟨h.1, ?_⟩
  unfold landingWrite
  rcases h.2 with h | h <;> rw [h]
  split <;> simp_all

/-! ## Verdicts, positions and the line space at rest -/

theorem reset_lineCanonical : State.reset.lb.wf = true := by decide

theorem clearLine_wf (s : State) : (clearLine s).lb.wf = true := nil_wf

/-- A verdict on a line names the parameter value that makes it one. -/
theorem lineVerdict_some {cfg : Config} {line : List Byte} {r : Refusal} (h : lineVerdict cfg line = some r) :
    (r = .fieldPrefix ∧ cfg.fieldPrefix = .refuse) ∨ (r = .fieldOverflow ∧ cfg.fieldOverflow = .refuse) := by
  unfold lineVerdict at h
  split at h
  · next h1 => exact .inl ⟨(Option.some.inj h).symm, h1.1⟩
  · split at h
    · next h1 => exact .inr ⟨(Option.some.inj h).symm, h1.1⟩
    · cases h

/-- The positions of R90. -/
theorem positionLegal_iff (s : State) : s.positionLegal = true ↔
    s.z < s.cfg.K ∧ (s.phase = .service → s.z = 0) ∧ (s.phase ≠ .cmp → s.x = 0#8 ∧ s.i = .c2) := by
  unfold State.positionLegal
  cases h : s.phase <;> simp [and_assoc]

/-- The counter updates after a compare are those of the state before it: a compare touches the ports only. -/
theorem advance_compareChannel (s : State) (c : Channel) :
    advance (compareChannel s c) c = { compareChannel s c with
      phase := (advance s c).phase, z := (advance s c).z, x := (advance s c).x, i := (advance s c).i } := by
  unfold advance
  cases nextChannel c <;> simp
  split <;> [rfl; (split <;> simp)]

/-- No duty write lands before the engine's step: the window is the service window, or none has arrived. -/
theorem landingWrite_none_iff (s : State) :
    landingWrite s = none ↔ s.cfg.hostWriteWindow = .serviceOnly ∨ ∀ w r, s.writes ≠ (0, w) :: r := by
  unfold landingWrite
  split
  · next h1 h2 => simp [h1, h2]
  · next h =>
    cases hw : s.cfg.hostWriteWindow with
    | serviceOnly => simp
    | anyStep =>
      simp only [reduceCtorEq, false_or, true_iff]
      exact fun w r hr => h _ _ hw hr

end Sys2Proof.Machine
end

