-- ==== Sys2Proof/Laws/Encoding.lean ====
section
/-! SUPPORT. The fields of a duty word (30_encoding.md R48) read back from the word. -/

namespace Sys2Proof.Machine

theorem dutyWord_index (idx : DutyIndex) (val : DutyValue) : (idx ++ val : BitVec 20).extractLsb' 16 4 = idx :=
  BitVec.extractLsb'_append_eq_left

theorem dutyWord_value (idx : DutyIndex) (val : DutyValue) : (idx ++ val : BitVec 20).extractLsb' 0 16 = val :=
  BitVec.extractLsb'_append_eq_right

theorem dutyWord_of_fields (w : BitVec 20) : (w.extractLsb' 16 4 ++ w.extractLsb' 0 16 : BitVec 20) = w :=
  (BitVec.extractLsb'_append_extractLsb'_eq_extractLsb' (x := w) rfl).trans (by simp)

end Sys2Proof.Machine
end

