-- ==== Sys2Proof/Laws/PerInstr.lean ====
section
/-! SUPPORT. Statements about every operation as syntax, one lemma per constructor. Family InterfaceFormat: the encoder
puts an operation on the interface of its own format (30_encoding.md R44, R51). -/

namespace Sys2Proof.Laws.InterfaceFormat

def Statement (i : Instr) : Prop := (encode i).format = i.format

theorem svc : Statement .svc := rfl
theorem poll : Statement .poll := rfl
theorem update : Statement .update := rfl
theorem lbclr : Statement .lbclr := rfl
theorem rstd : Statement .rstd := rfl
theorem rstb : Statement .rstb := rfl
theorem cmp2 : Statement .cmp2 := rfl
theorem cmp3 : Statement .cmp3 := rfl
theorem cmp4 : Statement .cmp4 := rfl
theorem cmp5 : Statement .cmp5 := rfl
theorem cmp6 : Statement .cmp6 := rfl
theorem cmp7 : Statement .cmp7 := rfl
theorem cmp8 : Statement .cmp8 := rfl
theorem cmp9 : Statement .cmp9 := rfl
theorem cmp10 : Statement .cmp10 := rfl
theorem cmp11 : Statement .cmp11 := rfl
theorem cmp12 : Statement .cmp12 := rfl
theorem cmp13 : Statement .cmp13 := rfl
theorem dwr (idx : DutyIndex) (val : DutyValue) : Statement (.dwr idx val) := rfl
theorem psetPd : Statement .psetPd := rfl
theorem psetPb : Statement .psetPb := rfl
theorem pclrPd2 : Statement .pclrPd2 := rfl
theorem pclrPd3 : Statement .pclrPd3 := rfl
theorem pclrPd4 : Statement .pclrPd4 := rfl
theorem pclrPd5 : Statement .pclrPd5 := rfl
theorem pclrPd6 : Statement .pclrPd6 := rfl
theorem pclrPd7 : Statement .pclrPd7 := rfl
theorem pclrPb0 : Statement .pclrPb0 := rfl
theorem pclrPb1 : Statement .pclrPb1 := rfl
theorem pclrPb2 : Statement .pclrPb2 := rfl
theorem pclrPb3 : Statement .pclrPb3 := rfl
theorem pclrPb4 : Statement .pclrPb4 := rfl
theorem pclrPb5 : Statement .pclrPb5 := rfl
theorem line (bytes : List Byte) : Statement (.line bytes) := rfl

end Sys2Proof.Laws.InterfaceFormat
end

