-- ==== Sys2Proof/Tests/Slice0.lean ====
section
/-! SUPPORT. The model's own tests: ill-formed terms, the decoding of every operation from its written-out word, single
steps with the results of the spec's vectors (95_test_vectors.md) or of hand calculation from its rules, and a witness for
the hypotheses of every statement. -/

namespace Sys2Proof.Machine.Tests

/-! ## Helpers -/

/-- A byte string from numbers. -/
def bytesOf (l : List Nat) : List Byte := l.map (BitVec.ofNat 8)

/-- The next state of an outcome. -/
def nextOf (o : Host.Outcome State Fault Refusal) : Option State :=
  match o with
  | .next t => some t
  | .fault _ => none
  | .refused _ => none

/-- The refusal of an outcome. -/
def refusalIn (o : Host.Outcome State Fault Refusal) : Option Refusal :=
  match o with
  | .next _ => none
  | .fault _ => none
  | .refused r => some r

/-- The duty array with the twelve channel entries given. -/
def dutyOf (f : Fin 12 → Nat) : Vector DutyValue 14 :=
  Vector.ofFn fun n => if h : 2 ≤ n.val then BitVec.ofNat 16 (f ⟨n.val - 2, by omega⟩) else 0#16

/-- The start state of V-F1 to V-F18: the entries are 100 to 111. -/
def base : State := { State.reset with duty := dutyOf fun n => 100 + n.val }

/-- `base` with a sweep waiting. -/
def withSweep (l : List Nat) : State := { base with sweeps := [bytesOf l] }

/-- A state at a compare: level, channel, its duty value (all channels the same), the two ports. -/
def atCmp (x : Nat) (c : Channel) (d pd pb : Nat) : State :=
  { State.reset with
    duty := dutyOf fun _ => d
    phase := .cmp
    x := BitVec.ofNat 8 x
    i := c
    pd := BitVec.ofNat 8 pd
    pb := BitVec.ofNat 8 pb }

/-- The position of a state as numbers. -/
def position (s : State) : Phase × Nat × Nat × Nat := (s.phase, s.z, s.x.toNat, s.i.num)

/-- The twelve channel entries as numbers. -/
def duties (s : State) : List Nat := (s.duty.toList.map BitVec.toNat).drop 2

/-- The entries after a run of `SVC` on one sweep, from V-F's start state. -/
def afterSweep (l : List Nat) : Option (List Nat) := (nextOf (step (withSweep l))).map duties

/-- The ports after one compare. -/
def portsAfter (s : State) : Option (Nat × Nat) := (nextOf (step s)).map fun t => (t.pd.toNat, t.pb.toNat)

/-! ## Ill-formed terms (30_encoding.md R44) -/

theorem test_line_empty_refused : Instr.wellFormed (.line []) = false := by decide

theorem test_line_too_long_refused : Instr.wellFormed (.line (List.replicate 50 0x31#8)) = false := by decide

theorem test_line_longest_accepted : Instr.wellFormed (.line (List.replicate 49 0x31#8)) = true := by decide

/-- A configuration with `K = 0` is not legal (R89), nor one whose reset leaves a mapped line low. -/
theorem test_config_refused :
    Config.wf { Config.hardware with K := 0 } = false ∧ Config.wf { Config.hardware with allHighPd := 0xFB#8 } = false ∧
      Config.wf { Config.hardware with allHighPb := 0xDF#8 } = false := by decide

/-! ## Decoding: the words of R48, R49, R50, written out -/

theorem test_decode_m_service : decode (.m 0b00000000#8) = .ok .svc ∧ decode (.m 0b00000001#8) = .ok .poll ∧
    decode (.m 0b00000010#8) = .ok .update ∧ decode (.m 0b00000011#8) = .ok .lbclr ∧
    decode (.m 0b00010000#8) = .ok .rstd ∧ decode (.m 0b00010001#8) = .ok .rstb := by decide

theorem test_decode_m_compare : decode (.m 0x22#8) = .ok .cmp2 ∧ decode (.m 0x23#8) = .ok .cmp3 ∧
    decode (.m 0x24#8) = .ok .cmp4 ∧ decode (.m 0x25#8) = .ok .cmp5 ∧ decode (.m 0x26#8) = .ok .cmp6 ∧
    decode (.m 0x27#8) = .ok .cmp7 ∧ decode (.m 0x28#8) = .ok .cmp8 ∧ decode (.m 0x29#8) = .ok .cmp9 ∧
    decode (.m 0x2A#8) = .ok .cmp10 ∧ decode (.m 0x2B#8) = .ok .cmp11 ∧ decode (.m 0x2C#8) = .ok .cmp12 ∧
    decode (.m 0x2D#8) = .ok .cmp13 := by decide

theorem test_decode_p : decode (.p 0b00000#5) = .ok .psetPd ∧ decode (.p 0b01000#5) = .ok .psetPb ∧
    decode (.p 0b10010#5) = .ok .pclrPd2 ∧ decode (.p 0b10011#5) = .ok .pclrPd3 ∧
    decode (.p 0b10100#5) = .ok .pclrPd4 ∧ decode (.p 0b10101#5) = .ok .pclrPd5 ∧
    decode (.p 0b10110#5) = .ok .pclrPd6 ∧ decode (.p 0b10111#5) = .ok .pclrPd7 ∧
    decode (.p 0b11000#5) = .ok .pclrPb0 ∧ decode (.p 0b11001#5) = .ok .pclrPb1 ∧
    decode (.p 0b11010#5) = .ok .pclrPb2 ∧ decode (.p 0b11011#5) = .ok .pclrPb3 ∧
    decode (.p 0b11100#5) = .ok .pclrPb4 ∧ decode (.p 0b11101#5) = .ok .pclrPb5 := by decide

/-- The words of V-F22 and of R48's example. -/
theorem test_decode_h : decode (.h 0x300FF#20) = .ok (.dwr 3 255) ∧ decode (.h 0x2000A#20) = .ok (.dwr 2 10) ∧
    decode (.h 0xDFFFF#20) = .ok (.dwr 13 65535) ∧ decode (.h 0xE0005#20) = .ok (.dwr 14 5) := by decide

theorem test_decode_t : decode (.t (bytesOf [0x35, 0x2C, 0x31, 0x30])) = .ok (.line (bytesOf [0x35, 0x2C, 0x31, 0x30])) ∧
    decode (.t []) = .ok (.line []) ∧
    decode (.t (List.replicate 50 0x31#8)) = .ok (.line (List.replicate 50 0x31#8)) := by decide

/-- The reserved words V-M15 names. -/
theorem test_reserved_refused : (∀ w ∈ [0x20#8, 0x21#8, 0x2E#8, 0x2F#8, 0x04#8, 0x12#8, 0x30#8],
      decode (.m w) = .error .reservedMicroop) ∧
    (∀ w ∈ [0b00001#5, 0b10000#5, 0b10001#5, 0b11110#5, 0b11111#5], decode (.p w) = .error .reservedPortop) := by
  decide

/-- The table's words: a five-bit row, an eight-bit row, a five-bit row in a whole byte, a 20-bit row in whole bytes. -/
theorem test_table_words : decodeTableWord 5 0b10010 = some .pclrPd2 ∧ decodeTableWord 8 0x22 = some .cmp2 ∧
    decodeTableWord 8 0b10010 = some .pclrPd2 ∧ decodeTableWord 24 0x300FF = some (.dwr 3 255) ∧
    decodeTableWord 16 0x2C35 = some (.line [0x35#8, 0x2C#8]) ∧ decodeTableWord 8 0x20 = none := by decide

/-- A placed `CMP 2` runs as the first step after reset: duty 0 equals level 0. -/
theorem test_placed_compare :
    portsAfter (({ State.reset with pd := 0xFF#8, pb := 0xFF#8 } : State).withFetchWord 8 0x22) = some (0xFB, 0xFF) := by
  decide

/-- A placed `DWR 3, 255` runs as the first step after reset. -/
theorem test_placed_duty_write : (nextOf (step (State.reset.withFetchWord 24 0x300FF))).map duties =
    some [0, 255, 0, 0, 0, 0, 0, 0, 0, 0, 0, 0] := by decide

/-! ## Fields (part B1) -/

/-- V-T3, V-T8, V-T10, V-T11, V-T12, V-T13, V-T16, V-T19. -/
theorem test_field_values : fieldValue (bytesOf [0x30, 0x30, 0x37]) = 7#16 ∧
    fieldValue (bytesOf [0x36, 0x35, 0x35, 0x33, 0x36]) = 65535#16 ∧ fieldValue (bytesOf [0x61, 0x62, 0x63]) = 0#16 ∧
    fieldValue [] = 0#16 ∧ fieldValue (bytesOf [0x31, 0x32, 0x61, 0x62, 0x63]) = 12#16 ∧
    fieldValue (bytesOf [0x31, 0x30, 0x0A]) = 10#16 ∧ fieldValue (bytesOf [0x31, 0x2D, 0x32]) = 1#16 ∧
    fieldValue (bytesOf [0x30, 0x78, 0x31, 0x30]) = 0#16 := by decide

/-- V-T14, V-T15, V-T17, V-T20 to V-T23 inside, V-T24 to V-T28 outside. -/
theorem test_defined_subset : (∀ f ∈ [[0x2D], [0x35, 0x20], [0x0A], [0x20, 0x2D], [0x2D, 0x20, 0x35],
      [0x2B, 0x2D, 0x35], [0x20, 0x61]], outsideSubset (bytesOf f) = false) ∧
    (∀ f ∈ [[0x20, 0x35], [0x2D, 0x35], [0x2B, 0x31, 0x32], [0x20, 0x20, 0x37], [0x09, 0x2D, 0x33]],
      outsideSubset (bytesOf f) = true) := by decide

/-! ## The front-end (part B2), each as one `SVC` step -/

/-- V-F1 (S1): "10,255,0,128". -/
theorem test_svc_example : afterSweep [0x31, 0x30, 0x2C, 0x32, 0x35, 0x35, 0x2C, 0x30, 0x2C, 0x31, 0x32, 0x38] =
    some [10, 255, 0, 128, 104, 105, 106, 107, 108, 109, 110, 111] := by decide

/-- V-F6: "5,,7": the empty field counts and is 0. -/
theorem test_svc_empty_field : afterSweep [0x35, 0x2C, 0x2C, 0x37] =
    some [5, 0, 7, 103, 104, 105, 106, 107, 108, 109, 110, 111] := by decide

/-- V-F14: a 0x00 ends the line. -/
theorem test_svc_null_ends_line : afterSweep [0x35, 0x00, 0x36, 0x2C, 0x37] =
    some [5, 101, 102, 103, 104, 105, 106, 107, 108, 109, 110, 111] := by decide

/-- V-F17: "1, 2" is refused. -/
theorem test_svc_prefix_refused :
    refusalIn (step (withSweep [0x31, 0x2C, 0x20, 0x32])) = some .fieldPrefix := by decide

/-- The parser writes from index 2 on and ignores the thirteenth field, even one outside the subset (V-F5, V-F18). -/
theorem test_update_ignores_field_twelve :
    (nextOf (exec (.line (bytesOf [0x31, 0x2C, 0x2C, 0x2C, 0x2C, 0x2C, 0x2C, 0x2C, 0x2C, 0x2C, 0x2C, 0x2C, 0x31, 0x32,
      0x2C, 0x20, 0x31, 0x33])) base)).map duties = some [1, 0, 0, 0, 0, 0, 0, 0, 0, 0, 0, 12] := by decide

/-- V-F19: what `POLL` leaves of "5,10". -/
theorem test_poll_stores : (nextOf (exec .poll (withSweep [0x35, 0x2C, 0x31, 0x30]))).map
    (fun t => (t.lb, t.wp, t.sweeps)) = some ([(0, 0x35#8), (1, 0x2C#8), (2, 0x31#8), (3, 0x30#8)], 4, []) := by decide

/-- V-F20: of a longer sweep 49 bytes are kept and the terminator stands in the last position. -/
theorem test_poll_truncates : (nextOf (exec .poll { base with sweeps := [List.replicate 60 0x31#8] })).map
    (fun t => (t.wp.val, t.lb.read 48, t.lb.read 49)) = some (49, 0x31#8, 0x00#8) := by decide

/-- A presented byte string of any length is a sweep (R77): none changes nothing (R62), sixty are cut at 49 (R64), here
"1," thirty times: the first 49 bytes end with a "1" and fill all twelve entries. -/
theorem test_line_any_length : nextOf (step { base with presented := [.t []] }) = some base ∧
    (nextOf (step { base with presented := [.t (List.replicate 30 [0x31#8, 0x2C#8]).flatten] })).map duties =
      some (List.replicate 12 1) := by decide

/-- V-F11's values, as `UPDATE` takes them from the buffer: 300 and 256 are stored whole. -/
theorem test_update_wide_values : (nextOf (exec .update { base with
    lb := [(0, 0x33#8), (1, 0x30#8), (2, 0x30#8), (3, 0x2C#8), (4, 0x32#8), (5, 0x35#8), (6, 0x36#8)] })).map duties =
    some [300, 256, 102, 103, 104, 105, 106, 107, 108, 109, 110, 111] := by decide

/-- V-F19: `LBCLR` clears the buffer and the pointer. -/
theorem test_lbclr : (nextOf (exec .lbclr { base with lb := [(0, 0x35#8), (49, 0x31#8)], wp := 4 })).map
    (fun t => (t.lb, t.wp)) = some ([], 0) := by decide

/-- V-F22. -/
theorem test_dwr : (nextOf (exec (.dwr 13 65535) base)).map duties =
      some [100, 101, 102, 103, 104, 105, 106, 107, 108, 109, 110, 65535] ∧
    nextOf (exec (.dwr 1 5) base) = some base ∧ nextOf (exec (.dwr 14 5) base) = some base := by decide

/-! ## The cycle controller (part B3) -/

/-- V-C1 to V-C3 with the ports of P1, from any port contents. -/
theorem test_first_steps : (nextOf (step State.reset)).map position = some (.rstd, 0, 0, 2) ∧
    (nextOf (step { State.reset with phase := .rstd, pd := 0x03#8 })).map (fun t => (position t, t.pd)) =
      some ((.rstb, 0, 0, 2), 0xFF#8) ∧
    (nextOf (step { State.reset with phase := .rstb, pb := 0xC1#8 })).map (fun t => (position t, t.pb)) =
      some ((.cmp, 0, 0, 2), 0xFF#8) := by decide

/-- V-C5, V-C7, V-C9, V-C11. -/
theorem test_counter_wraps : (nextOf (step (atCmp 0 .c13 300 0 0))).map position = some (.cmp, 0, 1, 2) ∧
    (nextOf (step (atCmp 255 .c13 300 0 0))).map position = some (.rstd, 1, 0, 2) ∧
    (nextOf (step { atCmp 255 .c13 300 0 0 with z := 2 })).map position = some (.service, 0, 0, 2) ∧
    (nextOf (step { atCmp 255 .c13 300 0 0 with cfg := { Config.hardware with K := 1 } })).map position =
      some (.service, 0, 0, 2) := by decide

/-! ## Comparator and port engine (part B4) -/

/-- V-M1 to V-M3, and V-M12. -/
theorem test_cmp_equality : portsAfter (atCmp 10 .c2 10 0xFF 0xFF) = some (0xFB, 0xFF) ∧
    portsAfter (atCmp 10 .c2 11 0xFF 0xFF) = some (0xFF, 0xFF) ∧
    portsAfter (atCmp 10 .c2 9 0xFF 0xFF) = some (0xFF, 0xFF) ∧
    portsAfter (atCmp 7 .c3 7 0xFB 0xC0) = some (0xF3, 0xC0) := by decide

/-- V-M8, V-M9, V-M10, V-M11: the whole duty value is compared. -/
theorem test_cmp_wide_duty : portsAfter (atCmp 0 .c5 256 0xFF 0xFF) = some (0xFF, 0xFF) ∧
    portsAfter (atCmp 255 .c5 511 0xFF 0xFF) = some (0xFF, 0xFF) ∧
    portsAfter (atCmp 44 .c5 300 0xFF 0xFF) = some (0xFF, 0xFF) ∧
    portsAfter (atCmp 255 .c5 65535 0xFF 0xFF) = some (0xFF, 0xFF) := by decide

/-- The bit each channel's compare clears, from the table of R93. -/
theorem test_cmp_bits : portsAfter (atCmp 0 .c2 0 0xFF 0xFF) = some (0xFB, 0xFF) ∧
    portsAfter (atCmp 0 .c3 0 0xFF 0xFF) = some (0xF7, 0xFF) ∧ portsAfter (atCmp 0 .c4 0 0xFF 0xFF) = some (0xEF, 0xFF) ∧
    portsAfter (atCmp 0 .c5 0 0xFF 0xFF) = some (0xDF, 0xFF) ∧ portsAfter (atCmp 0 .c6 0 0xFF 0xFF) = some (0xBF, 0xFF) ∧
    portsAfter (atCmp 0 .c7 0 0xFF 0xFF) = some (0x7F, 0xFF) ∧ portsAfter (atCmp 0 .c8 0 0xFF 0xFF) = some (0xFF, 0xFE) ∧
    portsAfter (atCmp 0 .c9 0 0xFF 0xFF) = some (0xFF, 0xFD) ∧ portsAfter (atCmp 0 .c10 0 0xFF 0xFF) = some (0xFF, 0xFB) ∧
    portsAfter (atCmp 0 .c11 0 0xFF 0xFF) = some (0xFF, 0xF7) ∧
    portsAfter (atCmp 0 .c12 0 0xFF 0xFF) = some (0xFF, 0xEF) ∧
    portsAfter (atCmp 0 .c13 0 0xFF 0xFF) = some (0xFF, 0xDF) := by decide

/-- V-M15: the port operations. -/
theorem test_port_operations :
    (nextOf (exec .psetPd { base with pd := 0x03#8, pb := 0x11#8 })).map (fun t => (t.pd, t.pb)) = some (0xFF#8, 0x11#8) ∧
    (nextOf (exec .psetPb { base with pd := 0x11#8, pb := 0xC1#8 })).map (fun t => (t.pd, t.pb)) = some (0x11#8, 0xFF#8) ∧
    (nextOf (exec .pclrPd2 { base with pd := 0xFF#8, pb := 0xFF#8 })).map (fun t => (t.pd, t.pb)) =
      some (0xFB#8, 0xFF#8) ∧
    (nextOf (exec .pclrPb5 { base with pd := 0xFF#8, pb := 0xFF#8 })).map (fun t => (t.pd, t.pb)) =
      some (0xFF#8, 0xDF#8) ∧
    (nextOf (exec .pclrPb0 { base with pd := 0xFF#8, pb := 0xFE#8 })).map (fun t => (t.pd, t.pb)) =
      some (0xFF#8, 0xFE#8) := by decide

/-- V-M16 (b): a write that lands under `any_step` just before `CMP 3` at level 60 is the value compared. -/
theorem test_mid_cycle_write :
    let s : State := { atCmp 60 .c3 300 0xFF 0xFF with
      cfg := { Config.hardware with hostWriteWindow := .anyStep }, writes := [(0, 0x3003C#20)] }
    (nextOf (Sys2Proof.core.run 2 s)).map (fun t => t.pd) = some 0xF7#8 := by decide

/-! ## Witnesses: states and operands that meet the hypotheses of the statements

Each is named after its statement. -/

/-- `s` under a configuration. -/
def underCfg (s : State) (cfg : Config) : State := { s with cfg := cfg }

/-- The write window `any_step`. -/
def anyStepCfg : Config := { Config.hardware with hostWriteWindow := .anyStep }

/-- "5,10". -/
def fiveTen : List Byte := bytesOf [0x35, 0x2C, 0x31, 0x30]

/-- " 5", outside the defined subset. -/
def spaceFive : List Byte := bytesOf [0x20, 0x35]

/-- `State.reset` at the start of a cycle. -/
def cycleStart : State := { State.reset with phase := .rstd }

theorem engineTurn_of_hardware (s : State) (h : s.presented = []) (hw : s.cfg.hostWriteWindow = .serviceOnly) :
    s.engineTurn := engineTurn_of_alone ⟨h, .inl hw⟩

theorem witness_roundTrip : Instr.wellFormed (.line fiveTen) = true ∧ Instr.wellFormed (.dwr 15 65535) = true ∧
    (∃ i, decode (.p 0b11101#5) = .ok i) := by
  exact ⟨by decide, by decide, _, rfl⟩

theorem witness_reservedMicroops : (∀ w ∈ [0x04#8, 0x0F#8, 0x12#8, 0x1F#8, 0x20#8, 0x21#8, 0x2E#8, 0x2F#8, 0x30#8, 0xFF#8],
      reservedM w) ∧ (∀ w ∈ [0x00#8, 0x03#8, 0x10#8, 0x11#8, 0x22#8, 0x2D#8], ¬reservedM w) ∧
    ({ base with presented := [.m 0x20#8] } : State).presented = .m 0x20#8 :: [] := by
  unfold reservedM; decide

theorem witness_reservedPortops : (∀ w ∈ [0b00001#5, 0b00111#5, 0b01001#5, 0b01111#5, 0b10000#5, 0b10001#5, 0b11110#5,
      0b11111#5], reservedP w) ∧ (∀ w ∈ [0b00000#5, 0b01000#5, 0b10010#5, 0b10111#5, 0b11000#5, 0b11101#5], ¬reservedP w) ∧
    ({ base with presented := [.p 0b10000#5] } : State).presented = .p 0b10000#5 :: [] := by
  unfold reservedP; decide

theorem witness_dutyIndexes : (1#4).toNat < 2 ∧ 13 < (14#4).toNat ∧ Channel.c2.num = (2#4).toNat ∧
    Channel.c13.num = (13#4).toNat := by decide

theorem witness_portOperationWords : (1#3) ≠ 0#3 ∧ (7#3) ≠ 0#3 := by decide

theorem witness_stepRuns :
    (({ base with presented := [.h 0x300FF#20] } : State).presented = .h 0x300FF#20 :: [] ∧
      decode (.h 0x300FF#20) = .ok (.dwr 3 255)) ∧
    (let s : State := { underCfg base anyStepCfg with writes := [(0, 0x300FF#20)] };
      s.presented = [] ∧ s.cfg.hostWriteWindow = .anyStep ∧ s.writes = (0, 0x300FF#20) :: []) ∧
    (base.engineTurn ∧ decode (.m (selectWord base)) = .ok .svc) :=
  ⟨by decide, by decide, engineTurn_of_hardware _ rfl rfl, by decide⟩

theorem witness_placedWord : decodeTableWord 8 0x22 = some .cmp2 ∧ decodeTableWord 24 0x300FF = some (.dwr 3 255) := by
  decide

/-- Every phase; and in the service phase a sweep with no arrived word, and arrived words with no sweep. -/
theorem witness_engineStep : base.cfg.standardEngine = true ∧
    (∀ ph : Phase, ({ base with phase := ph } : State).engineTurn ∧ ({ base with phase := ph } : State).phase = ph) ∧
    (let s : State := { base with sweeps := [fiveTen], writes := [(1, 0x300FF#20)] };
      s.engineTurn ∧ s.phase = .service ∧ arrivedWrites s.writes = []) ∧
    (let s : State := { base with writes := [(0, 0x2000A#20), (0, 0x300FF#20)] };
      s.engineTurn ∧ s.phase = .service ∧ (poll s).1 = .noUpdate ∧ (arrivedWrites s.writes).length = 2) :=
  ⟨by decide, fun _ => ⟨engineTurn_of_hardware _ rfl rfl, rfl⟩, ⟨engineTurn_of_hardware _ rfl rfl, by decide⟩,
    engineTurn_of_hardware _ rfl rfl, by decide⟩

/-- Both clauses: no byte; and sweeps of 1, 49 and 50 bytes. -/
theorem witness_poll : (takeSweep base).1 = [] ∧
    ∀ bytes ∈ [fiveTen.take 1, List.replicate 49 0x31#8, List.replicate 50 0x31#8],
      ({ base with sweeps := [bytes] } : State).sweeps = bytes :: [] ∧ bytes ≠ [] ∧
        rejectsSweep base.cfg bytes = false := by decide

theorem witness_emptyRead : base.positionLegal = true ∧ base.phase = .service ∧ base.presented = [] ∧ base.writes = [] ∧
    (takeSweep base).1 = [] ∧ 1 < base.cfg.K ∧
    (let s := underCfg base { Config.hardware with K := 1 };
      s.positionLegal = true ∧ s.phase = .service ∧ s.presented = [] ∧ s.writes = [] ∧ (takeSweep s).1 = [] ∧
        s.cfg.K = 1) := by decide

theorem witness_rejectedSweep :
    let s : State := { underCfg base { Config.hardware with lineOverflow := .rejectLine } with
      sweeps := [List.replicate 50 0x31#8] }
    s.sweeps = List.replicate 50 0x31#8 :: [] ∧ s.cfg.lineOverflow = .rejectLine ∧
      49 < (List.replicate 50 0x31#8).length := by decide

theorem witness_fieldsCut : ([[0x35#8], []] : List (List Byte)) ≠ [] ∧
    (∀ f ∈ ([[0x35#8], []] : List (List Byte)), 0x2C#8 ∉ f) ∧
    [0x2C#8].intercalate ([[0x35#8], []] : List (List Byte)) = [0x35#8, 0x2C#8] := by decide

/-- The clauses of the value of a field: digits 0 and 9 with a tail, and no digit. -/
theorem witness_fieldValue : (∀ d ∈ bytesOf [0x39, 0x30], isDigit d = true) ∧ startsWithDigit (bytesOf [0x2F]) = false ∧
    startsWithDigit (bytesOf [0x3A]) = false ∧ startsWithDigit [] = false := by decide

theorem witness_definedSubset : spaceFive ≠ [] ∧ rejectsSweep base.cfg spaceFive = false ∧ base.cfg.fieldPrefix = .refuse ∧
    ∃ f ∈ writtenFields base.cfg (sweepLine spaceFive), outsideSubset f = true := by decide

/-- The empty line at position 0, a line that fills the buffer, and one that is refused. -/
theorem witness_updateParses :
    LineAt [] 0 [] ∧ (∀ f ∈ (splitFields []).take 12, outsideSubset f = false) ∧
    LineAt ((List.range 49).map fun k => (k, 0x31#8)) 49 (List.replicate 49 0x31#8) ∧
    (∀ f ∈ (splitFields (List.replicate 49 0x31#8)).take 12, outsideSubset f = false) ∧
    LineAt [(0, 0x20#8), (1, 0x35#8)] 2 spaceFive ∧ (∃ f ∈ (splitFields spaceFive).take 12, outsideSubset f = true) ∧
    base.cfg.fieldPrefix = .refuse ∧ base.cfg.emptyField = .zero ∧ base.cfg.fieldOverflow = .saturate := by
  unfold LineAt; decide

theorem witness_updatePolicies : lineVerdict base.cfg base.lb.line = none ∧
    lineVerdict base.cfg (Memory.line [(0, 0x20#8), (1, 0x35#8)]) = some .fieldPrefix ∧
    lineVerdict { Config.hardware with fieldOverflow := .refuse }
      (bytesOf [0x36, 0x35, 0x35, 0x33, 0x36]) = some .fieldOverflow ∧
    ({ Config.hardware with fieldPrefix := .strict } : Config).fieldPrefix = .strict ∧
    ({ Config.hardware with fieldPrefix := .strict } : Config).fieldOverflow = .saturate := by decide

/-- ",5" and "65536" under the options `skip` and `refuse`: what is numbered, and each of the three cases. -/
theorem witness_updateOptions :
    let skip := { Config.hardware with emptyField := .skip, fieldOverflow := .refuse }
    (let s : State := { underCfg base skip with lb := [(0, 0x2C#8), (1, 0x35#8)] };
      s.cfg.emptyField = .skip ∧ [[0x35#8]] = (splitFields s.lb.line).filter (fun f => decide (f ≠ [])) ∧
        ¬(∃ f ∈ [[0x35#8]].take 12, outsideSubset f = true) ∧ ¬(∃ f ∈ [[0x35#8]].take 12, 65535 < decOf (digitRun f)) ∧
        (nextOf (exec .update s)).map (fun t => (duties t).take 2) = some [5, 101]) ∧
    (let f := bytesOf [0x36, 0x35, 0x35, 0x33, 0x36];
      skip.fieldOverflow = .refuse ∧ outsideSubset f = false ∧ 65535 < decOf (digitRun f)) ∧
    (base.cfg.emptyField = .zero ∧ [[], [0x35#8]] = splitFields [0x2C#8, 0x35#8]) ∧
    (skip.fieldPrefix = .refuse ∧ outsideSubset spaceFive = true) := by decide

/-- `UPDATE`'s destinations at both ends of their range. -/
theorem witness_updateIndexes : 0 < 12 ∧ channelOfIndex 2 = some .c2 ∧ 11 < 12 ∧ channelOfIndex 13 = some .c13 := by decide

/-- A waiting update that `SVC` accepts. -/
theorem witness_service :
    let s : State := { base with sweeps := [fiveTen] }
    (poll s).1 = .updateAvailable ∧ (nextOf (exec .svc s)).isSome = true ∧ (poll base).1 = .noUpdate ∧
      s.sweeps = fiveTen :: [] ∧ fiveTen ≠ [] ∧ rejectsSweep s.cfg fiveTen = false ∧
      lineVerdict s.cfg (sweepLine fiveTen) = none ∧ arrivedWrites s.writes = [] ∧ s.writes = [] := by decide

/-- An update and arrived words in one `SVC`, and the arrived words alone. -/
theorem witness_mixedService :
    let s : State := { base with sweeps := [fiveTen], writes := [(0, 0x300FF#20)] }
    (poll s).1 = .updateAvailable ∧ (nextOf (exec .svc s)).map (fun t => (duties t).take 2) = some [5, 255] ∧
      (poll { s with sweeps := [] }).1 = .noUpdate := by decide

theorem witness_arrivedWrites :
    let s : State := { base with writes := [(0, 0x2000A#20), (0, 0x300FF#20), (5, 0x40000#20)] }
    (poll s).1 = .noUpdate ∧
      s.writes = [0x2000A#20, 0x300FF#20].map (fun w => (0, w)) ++ [(5, 0x40000#20)] ∧
      ∀ p ∈ ([(5, 0x40000#20)] : List (Nat × BitVec 20)).head?, p.1 ≠ 0 := by decide

/-- The per-cycle resets: the hardware's configuration, and channels at both ends of both ports. -/
theorem witness_portResets : base.cfg.standardEngine = true ∧ base.cfg.wf = true ∧ Channel.c2.num < 8 ∧ Channel.c7.num < 8 ∧
    8 ≤ Channel.c8.num ∧ 8 ≤ Channel.c13.num ∧ (nextOf (exec .rstd base)).isSome = true ∧
    (nextOf (exec .rstb base)).isSome = true := by decide

theorem witness_portSet : allHigh base.cfg .pd = 0xFF#8 ∧ allHigh base.cfg .pb = 0xFF#8 ∧ PortSel.pd ≠ .pb := by decide

theorem witness_portClear : (({ base with pd := 0xFB#8 } : State).port .pd).getLsbD (2 : BitPos).val = false := by decide

theorem witness_compareAdvances : Channel.c12 ≠ .c13 ∧ (atCmp 254 .c13 0 0 0).x.toNat < 255 ∧
    (atCmp 255 .c13 0 0 0).x.toNat = 255 ∧ ({ base with z := 1 } : State).z + 1 < base.cfg.K ∧
    base.cfg.K ≤ ({ base with z := 2 } : State).z + 1 := by decide

theorem witness_largeDuty : 256 ≤ (dutyRead (atCmp 0 .c5 256 0xFF 0xFF) .c5).toNat ∧
    256 ≤ (dutyRead (atCmp 255 .c5 65535 0xFF 0xFF) .c5).toNat ∧
    (nextOf (exec (cmpOf .c5) (atCmp 0 .c5 256 0xFF 0xFF))).isSome = true := by decide

/-- Two states at one position with different data, on whose engine steps the statements about independence speak. -/
theorem witness_independence :
    let s := atCmp 10 .c2 10 0xFF 0xFF
    let t := { atCmp 10 .c2 10 0xFF 0x00 with duty := (dutyOf fun _ => 10).set 3 77#16 }
    SamePosition s t ∧ s.cfg = t.cfg ∧ s.engineTurn ∧ t.engineTurn ∧ dutyRead s .c2 = dutyRead t .c2 ∧
      s.out .c2 = t.out .c2 ∧ dutyRead s .c3 ≠ dutyRead t .c3 ∧ (nextOf (step s)).isSome = true ∧
      (nextOf (step t)).isSome = true :=
  ⟨by unfold SamePosition; decide, rfl, engineTurn_of_hardware _ rfl rfl, engineTurn_of_hardware _ rfl rfl, by decide,
    by decide, by decide, by decide, by decide⟩

/-- An engine step that is refused. -/
theorem witness_refusedStep :
    let s : State := { base with sweeps := [spaceFive] }
    s.engineTurn ∧ refusalIn (step s) = some .fieldPrefix ∧ s.presented = [] :=
  ⟨engineTurn_of_hardware _ rfl rfl, by decide, rfl⟩

/-- Refusals of presented words: a reserved word of each kind, and a line outside the subset. -/
theorem witness_refusedWords : refusalIn (step { base with presented := [.m 0x20#8] }) = some .reservedMicroop ∧
    refusalIn (step { base with presented := [.p 0b10000#5] }) = some .reservedPortop ∧
    refusalIn (step { base with presented := [.t spaceFive] }) = some .fieldPrefix := by decide

/-- A line that falls by its compare, and lines that rise by their port's reset, two of them in one step. -/
theorem witness_linesMove : State.reset.cfg.wf = true ∧
    (let s := atCmp 10 .c2 10 0xFF 0xFF;
      s.presented = [] ∧ s.out .c2 = true ∧ (nextOf (step s)).map (fun t => t.out .c2) = some false) ∧
    cycleStart.presented = [] ∧ Channel.c2 ≠ .c7 ∧ cycleStart.out .c2 = false ∧ cycleStart.out .c7 = false ∧
      (nextOf (step cycleStart)).map (fun t => (t.out .c2, t.out .c7)) = some (true, true) := by decide

/-- Every kind of operation that the rights of host and engine name completes. -/
theorem witness_rights : ∀ i ∈ [Instr.poll, .update, .lbclr, .dwr 2 10, .line fiveTen, .rstd, .rstb, cmpOf .c2, .svc,
    psetOf .pd, pclrOf .c13], (nextOf (exec i base)).isSome = true := by decide

/-- A step that completes, under a legal configuration. -/
theorem witness_someStep : (nextOf (step base)).isSome = true ∧ base.cfg.wf = true ∧ 1 ≤ base.cfg.K := by decide

theorem witness_writeWindow :
    (let s := atCmp 10 .c2 10 0xFF 0xFF;
      s.presented = [] ∧ s.cfg.hostWriteWindow = .serviceOnly ∧ s.phase ≠ .service ∧ (nextOf (step s)).isSome = true) ∧
    (let s : State := { underCfg (atCmp 10 .c2 10 0xFF 0xFF) anyStepCfg with writes := [(0, 0xDFFFF#20)] };
      s.presented = [] ∧ s.cfg.hostWriteWindow = .anyStep ∧ s.writes = (0, 0xDFFFF#20) :: []) := by decide

/-- Compares inside a cycle and at its end. -/
theorem witness_midCycle :
    (let s := atCmp 10 .c2 10 0x00 0xFF;
      s.engineTurn ∧ s.phase = .cmp ∧ s.out .c2 = false ∧ (nextOf (step s)).map (fun t => t.phase) = some .cmp) ∧
    (let s := atCmp 255 .c13 255 0xFF 0xFF;
      s.engineTurn ∧ s.phase = .cmp ∧ (nextOf (step s)).map (fun t => t.phase) = some .rstd) :=
  ⟨⟨engineTurn_of_hardware _ rfl rfl, by decide⟩, engineTurn_of_hardware _ rfl rfl, by decide⟩

/-- Power-up with an update waiting: the coming sweep is accepted. -/
theorem witness_powerUp : Config.hardware.standardEngine = true ∧ Config.hardware.wf = true ∧
    (State.powerUp Config.hardware 0x5A#8 0xA5#8 [fiveTen] []).sweepAccepted :=
  ⟨by decide, by decide, .inr (by decide)⟩

theorem witness_invariant : base.Inv ∧ (nextOf (step base)).isSome = true :=
  ⟨⟨by decide, by decide, by decide, by decide, by decide, by decide, by decide⟩, by decide⟩

/-- The invariant in a state with a word presented, a line in the buffer and a position inside a cycle. -/
theorem witness_invariant_presented :
    let s : State := { atCmp 200 .c9 3 0 0 with
      lb := [(0, 0x35#8)], wp := 1, presented := [.h 0x300FF#20, .p 0b10010#5, .m 0x02#8] }
    s.Inv ∧ (nextOf (step s)).isSome = true :=
  ⟨⟨by decide, by decide, by decide, by decide, by decide, by decide, by decide⟩, by decide⟩

theorem witness_frontEndRests : base.frontEndRests ∧ (nextOf (step base)).isSome = true :=
  ⟨⟨rfl, rfl, rfl⟩, by decide⟩

theorem witness_equalContents : Memory.wf [(0, 0x35#8), (48, 0x31#8)] = true ∧
    (∀ a : LinePos, Memory.read [(0, 0x35#8), (48, 0x31#8)] a = Memory.read [(0, 0x35#8), (48, 0x31#8)] a) :=
  ⟨by decide, fun _ => rfl⟩

/-- The three clauses of the engine's progress. -/
theorem witness_neverStops :
    (cycleStart.engineTurn ∧ cycleStart.phase ≠ .service) ∧
    (({ base with sweeps := [fiveTen] } : State).engineTurn ∧ ({ base with sweeps := [fiveTen] } : State).sweepAccepted) ∧
    (let s : State := { underCfg base anyStepCfg with writes := [(0, 0xDFFFF#20)] };
      s.presented = [] ∧ ¬s.engineTurn) ∧
    (let s : State := underCfg { base with sweeps := [spaceFive] } { Config.hardware with fieldPrefix := .strict };
      s.presented = [] ∧ s.cfg.fieldPrefix = .strict ∧ s.cfg.fieldOverflow = .saturate) :=
  ⟨⟨engineTurn_of_hardware _ rfl rfl, by decide⟩, ⟨engineTurn_of_hardware _ rfl rfl, .inr (by decide)⟩,
    ⟨rfl, fun h => nomatch h.2⟩, by decide⟩

/-- Legal positions at both ends of an iteration, on the engine's turn, with a next state. -/
theorem witness_positions :
    (base.positionLegal = true ∧ base.iterStep = 0 ∧ base.engineTurn ∧ (nextOf (step base)).isSome = true) ∧
    (let s := { atCmp 255 .c13 0 0 0 with z := 2 };
      s.positionLegal = true ∧ s.iterStep = 9222 ∧ s.engineTurn ∧ (nextOf (step s)).isSome = true) ∧
    iterLength base.cfg = 9223 ∧ 1 ≤ base.cfg.K :=
  ⟨⟨by decide, by decide, engineTurn_of_hardware _ rfl rfl, by decide⟩,
    ⟨by decide, by decide, engineTurn_of_hardware _ rfl rfl, by decide⟩, by decide, by decide⟩

theorem witness_iteration :
    let s : State := { base with sweeps := [fiveTen], writes := [(0, 0x300FF#20)] }
    s.positionLegal = true ∧ s.phase = .service ∧ s.engineAlone ∧ s.sweepAccepted :=
  ⟨by decide, rfl, ⟨rfl, .inl rfl⟩, .inr (by decide)⟩

/-- The waveform inside a cycle: at the compare of channel 5 in level 10 with duty 10, lines 2 to 4 are low. -/
theorem witness_waveform :
    let s := atCmp 10 .c5 10 0xE3 0xFF
    s.Inv ∧ s.presented = [] ∧ s.cfg.hostWriteWindow = .serviceOnly ∧ s.Waveform ∧ (nextOf (step s)).isSome = true :=
  ⟨⟨by decide, by decide, by decide, by decide, by decide, by decide, by decide⟩, rfl, rfl,
    fun c => by cases c <;> decide, by decide⟩

theorem witness_cycle : cycleStart.cfg.standardEngine = true ∧ cycleStart.engineAlone ∧ cycleStart.positionLegal = true ∧
    cycleStart.phase = .rstd ∧ 0 < 3074 ∧ 3073 < 3074 ∧ Channel.c7.num < 8 ∧ 1 ≤ 3073 :=
  ⟨by decide, ⟨rfl, .inl rfl⟩, by decide, rfl, by decide, by decide, by decide, by decide⟩

end Sys2Proof.Machine.Tests
end

section
/-! PROOFS. The operations by family, what a completed step is, and the statements of 10_state.md: the configuration and
the reserved duty entries are constants of every run, no operation reads the reserved entries, and the reset values. -/

namespace Sys2Proof.Machine

/-! ## Operations by family, and the inversion of a step -/

/-- Case analysis of an operation by family: the twelve compares, the two `PSET` and the twelve `PCLR` that the port mapper
names are one case each. -/
theorem Instr.familyCases {motive : Instr → Prop}
    (svc : motive .svc) (poll : motive .poll) (update : motive .update) (lbclr : motive .lbclr)
    (rstd : motive .rstd) (rstb : motive .rstb) (cmp : ∀ c, motive (cmpOf c))
    (dwr : ∀ idx val, motive (.dwr idx val)) (pset : ∀ p, motive (psetOf p)) (pclr : ∀ c, motive (pclrOf c))
    (line : ∀ bytes, motive (.line bytes)) (i : Instr) : motive i := by
  cases i with
  | svc => exact svc
  | poll => exact poll
  | update => exact update
  | lbclr => exact lbclr
  | rstd => exact rstd
  | rstb => exact rstb
  | cmp2 => exact cmp .c2
  | cmp3 => exact cmp .c3
  | cmp4 => exact cmp .c4
  | cmp5 => exact cmp .c5
  | cmp6 => exact cmp .c6
  | cmp7 => exact cmp .c7
  | cmp8 => exact cmp .c8
  | cmp9 => exact cmp .c9
  | cmp10 => exact cmp .c10
  | cmp11 => exact cmp .c11
  | cmp12 => exact cmp .c12
  | cmp13 => exact cmp .c13
  | dwr idx val => exact dwr idx val
  | psetPd => exact pset .pd
  | psetPb => exact pset .pb
  | pclrPd2 => exact pclr .c2
  | pclrPd3 => exact pclr .c3
  | pclrPd4 => exact pclr .c4
  | pclrPd5 => exact pclr .c5
  | pclrPd6 => exact pclr .c6
  | pclrPd7 => exact pclr .c7
  | pclrPb0 => exact pclr .c8
  | pclrPb1 => exact pclr .c9
  | pclrPb2 => exact pclr .c10
  | pclrPb3 => exact pclr .c11
  | pclrPb4 => exact pclr .c12
  | pclrPb5 => exact pclr .c13
  | line bytes => exact line bytes

/-- A step that completes ran a decoded operation, and an engine step counted down the write port. -/
theorem step_next {s t : State} (h : step s = .next t) :
    ∃ i u, decode (issue s).frame = .ok i ∧ exec i (issue s).start = .next u ∧
      t = if (issue s).engine then { u with writes := tickWrites u.writes } else u := by
  unfold step at h
  cases hd : decode (issue s).frame with
  | error e => rw [hd] at h; cases h
  | ok i =>
    simp only [hd] at h
    cases hx : exec i (issue s).start with
    | next u => rw [hx] at h; exact ⟨i, u, rfl, hx, (Host.Outcome.next.inj h).symm⟩
    | fault r => rw [hx] at h; cases h
    | refused r => rw [hx] at h; cases h

/-- The issued operation runs on the state as it stands, but for the two queues it may have been taken from. -/
theorem issue_start (s : State) :
    (issue s).start = { s with presented := (issue s).start.presented, writes := (issue s).start.writes } := by
  unfold issue
  cases hp : s.presented with
  | cons f r => rfl
  | nil =>
    cases hl : landingWrite s with
    | none => rfl
    | some q =>
      obtain ⟨-, r, -, ht⟩ := landingWrite_some (w := q.1) (t := q.2) hl
      simp [ht, hp]

/-! ## The configuration and the reserved entries are kept -/

/-- No operation changes the configuration (R23) or the two reserved duty entries (R12). -/
theorem exec_keeps {i : Instr} {s t : State} (h : exec i s = .next t) :
    t.cfg = s.cfg ∧ t.duty[0] = s.duty[0] ∧ t.duty[1] = s.duty[1] := by
  cases i using Instr.familyCases with
  | svc =>
    rcases execSvc_cases s with ⟨r, -, hr⟩ | ⟨-, u, hu, hx⟩
    · rw [hr] at h; cases h
    · rw [hx] at h
      obtain rfl := Host.Outcome.next.inj h
      obtain ⟨hcfg, -, -, -, -, -, -, -, -, -, h0, h1⟩ := serviceOfPoll_frame hu
      obtain ⟨hl0, hl1⟩ := landWrites_reserved u
      exact ⟨(landWrites_cfg u).trans hcfg, hl0.trans h0, hl1.trans h1⟩
  | update =>
    change parseLine s = .next t at h
    rcases parseLine_cases s with ⟨r, -, hr⟩ | ⟨-, hx⟩
    · rw [hr] at h; cases h
    · rw [hx] at h
      obtain rfl := Host.Outcome.next.inj h
      exact ⟨writeFields_cfg s 0 _, writeFields_reserved s 0 _⟩
  | line bytes =>
    obtain ⟨hcfg, -, -, -, -, -, -, -, -, -, hreserved⟩ := service_frame (bytes := bytes) h
    exact ⟨hcfg, hreserved⟩
  | dwr idx val =>
    obtain rfl := Host.Outcome.next.inj h
    exact ⟨dutyStore_cfg s idx val, dutyStore_reserved s idx val⟩
  | cmp c =>
    rw [exec_cmpOf] at h
    obtain rfl := Host.Outcome.next.inj h
    simp
  | pset p =>
    rw [exec_psetOf] at h
    obtain rfl := Host.Outcome.next.inj h
    simp
  | pclr c =>
    rw [exec_pclrOf] at h
    obtain rfl := Host.Outcome.next.inj h
    simp
  | poll => obtain rfl := Host.Outcome.next.inj h; simp
  | lbclr => obtain rfl := Host.Outcome.next.inj h; simp
  | rstd => obtain rfl := Host.Outcome.next.inj h; simp
  | rstb => obtain rfl := Host.Outcome.next.inj h; simp

/-- No step changes the configuration or the two reserved duty entries. -/
theorem step_keeps {s t : State} (h : step s = .next t) :
    t.cfg = s.cfg ∧ t.duty[0] = s.duty[0] ∧ t.duty[1] = s.duty[1] := by
  obtain ⟨i, u, -, hx, rfl⟩ := step_next h
  have hu := exec_keeps hx
  rw [issue_start s] at hu
  split <;> exact hu

theorem one_le_K_of_wf {c : Config} (h : c.wf = true) : 1 ≤ c.K := by
  simp only [Config.wf, Bool.and_eq_true, decide_eq_true_eq] at h
  exact h.1.1

/-- Settles O39: the frame of every operation and of every step holds the configuration. -/
theorem configurationConstant : Obligations.ConfigurationConstant :=
  ⟨rfl, fun _ => one_le_K_of_wf, by decide, fun _ _ _ h => (exec_keeps h).1, fun _ _ h => (step_keeps h).1⟩

/-! ## The reserved entries are not read

Every part of an operation commutes with overwriting the reserved entries. -/

/-- `s` with `v` and `w` in the reserved duty entries 0 and 1. -/
def State.withReserved (s : State) (v w : DutyValue) : State := { s with duty := (s.duty.set 0 v).set 1 w }

section
variable (s : State) (v w : DutyValue)

@[simp] theorem withReserved_cfg : (s.withReserved v w).cfg = s.cfg := rfl
@[simp] theorem withReserved_z : (s.withReserved v w).z = s.z := rfl
@[simp] theorem withReserved_x : (s.withReserved v w).x = s.x := rfl
@[simp] theorem withReserved_lb : (s.withReserved v w).lb = s.lb := rfl
@[simp] theorem withReserved_sweeps : (s.withReserved v w).sweeps = s.sweeps := rfl

@[simp] theorem dutyRead_withReserved (c : Channel) : dutyRead (s.withReserved v w) c = dutyRead s c := by
  have := c.num_ge
  simp only [dutyRead, State.withReserved]
  rw [Vector.getElem_set_ne _ _ (by omega), Vector.getElem_set_ne _ _ (by omega)]

/-! ### The engine -/

@[simp] theorem portSetAll_withReserved (p : PortSel) :
    portSetAll (s.withReserved v w) p = (portSetAll s p).withReserved v w := by
  cases p <;> rfl

@[simp] theorem portClrBit_withReserved (p : PortSel) (b : BitPos) :
    portClrBit (s.withReserved v w) p b = (portClrBit s p b).withReserved v w := by
  cases p <;> rfl

@[simp] theorem compareChannel_withReserved (c : Channel) :
    compareChannel (s.withReserved v w) c = (compareChannel s c).withReserved v w := by
  have hm : dutyMatches (s.withReserved v w) c = dutyMatches s c := by simp [dutyMatches]
  unfold compareChannel
  rw [hm, portClrBit_withReserved]
  split <;> rfl

@[simp] theorem advance_withReserved (c : Channel) :
    advance (s.withReserved v w) c = (advance s c).withReserved v w := by
  unfold advance
  cases nextChannel c with
  | some d => rfl
  | none =>
    simp only [withReserved_cfg, withReserved_x, withReserved_z, apply_ite fun t : State => t.withReserved v w]
    rfl

/-! ### Duty writes -/

@[simp] theorem dutyWrite_withReserved (c : Channel) (a : DutyValue) :
    dutyWrite (s.withReserved v w) c a = (dutyWrite s c a).withReserved v w := by
  have := c.num_ge
  simp only [dutyWrite, State.withReserved]
  rw [Vector.set_comm _ _ (by omega : 1 ≠ c.num), Vector.set_comm _ _ (by omega : 0 ≠ c.num)]

@[simp] theorem dutyStore_withReserved (idx : DutyIndex) (a : DutyValue) :
    dutyStore (s.withReserved v w) idx a = (dutyStore s idx a).withReserved v w := by
  unfold dutyStore
  cases channelOfIndex idx with
  | none => rfl
  | some c => exact dutyWrite_withReserved s v w c a

@[simp] theorem writeFields_withReserved (k : Nat) (fs : List Field) :
    writeFields (s.withReserved v w) k fs = (writeFields s k fs).withReserved v w := by
  induction fs generalizing s k with
  | nil => rfl
  | cons f fs ih =>
    simp only [writeFields, dutyStore_withReserved]
    split <;> exact ih _ _

@[simp] theorem storeWords_withReserved (ws : List (BitVec 20)) :
    storeWords (s.withReserved v w) ws = (storeWords s ws).withReserved v w := by
  unfold storeWords
  induction ws generalizing s with
  | nil => rfl
  | cons a ws ih => rw [List.foldl_cons, List.foldl_cons, dutyStore_withReserved, ih]

@[simp] theorem landWrites_withReserved :
    landWrites (s.withReserved v w) = (landWrites s).withReserved v w :=
  storeWords_withReserved { s with writes := laterWrites s.writes } v w (arrivedWrites s.writes)

/-! ### The service procedure -/

theorem pollSweep_withReserved (bytes : List Byte) :
    pollSweep (s.withReserved v w) bytes =
      ((pollSweep s bytes).1, (pollSweep s bytes).2.withReserved v w) := by
  unfold pollSweep
  rw [withReserved_cfg]
  split <;> rfl

theorem poll_withReserved : poll (s.withReserved v w) = ((poll s).1, (poll s).2.withReserved v w) := by
  have ht : takeSweep (s.withReserved v w) = ((takeSweep s).1, (takeSweep s).2.withReserved v w) := by
    unfold takeSweep
    rw [withReserved_sweeps]
    cases s.sweeps <;> rfl
  unfold poll
  rw [ht, pollSweep_withReserved]

theorem parseLine_withReserved :
    parseLine (s.withReserved v w) = andThen (parseLine s) fun t => .next (t.withReserved v w) := by
  unfold parseLine
  rw [withReserved_cfg, withReserved_lb, writeFields_withReserved]
  cases lineVerdict s.cfg s.lb.line <;> rfl

theorem serviceAfterPoll_withReserved (r : PollResult) :
    serviceAfterPoll (r, s.withReserved v w) =
      andThen (serviceAfterPoll (r, s)) fun t => .next (t.withReserved v w) := by
  cases r with
  | noUpdate => rfl
  | updateAvailable =>
    simp only [serviceAfterPoll, parseLine_withReserved]
    cases parseLine s <;> rfl

/-! ### The operations -/

theorem execSvc_withReserved :
    exec .svc (s.withReserved v w) = andThen (exec .svc s) fun t => .next (t.withReserved v w) := by
  simp only [exec, execSvc, poll_withReserved, serviceAfterPoll_withReserved]
  cases serviceAfterPoll (poll s) with
  | next t => simp only [andThen, landWrites_withReserved]; rfl
  | fault r => rfl
  | refused r => rfl

/-- With other values in the reserved entries every operation ends alike and leaves all else the same (R12). -/
theorem exec_withReserved (i : Instr) :
    exec i (s.withReserved v w) = andThen (exec i s) fun t => .next (t.withReserved v w) := by
  cases i using Instr.familyCases with
  | svc => exact execSvc_withReserved s v w
  | poll => simp only [exec, execPoll, poll_withReserved, andThen]
  | update => exact parseLine_withReserved s v w
  | lbclr => rfl
  | rstd => simp only [exec, execRstd, portSetAll_withReserved]; rfl
  | rstb => simp only [exec, execRstb, portSetAll_withReserved]; rfl
  | cmp c => simp only [exec_cmpOf, compareChannel_withReserved, advance_withReserved, andThen]
  | dwr idx val => simp only [exec, execDwr, dutyStore_withReserved, andThen]
  | pset p => simp only [exec_psetOf, portSetAll_withReserved, andThen]
  | pclr c => simp only [exec_pclrOf, portClrBit_withReserved, andThen]
  | line bytes =>
    simp only [exec, execLine, pollSweep_withReserved]
    exact serviceAfterPoll_withReserved (pollSweep s bytes).2 v w (pollSweep s bytes).1

end

theorem powerUp_duty (cfg : Config) (d b : Byte) (sw : List (List Byte)) (ws : List (Nat × BitVec 20)) (k : Nat)
    (hk : k < 14) : (State.powerUp cfg d b sw ws).duty[k] = 0#16 :=
  Vector.getElem_replicate hk

/-- Settles O40: the frame of every operation and step holds the entries, and every operation commutes with overwriting
them. -/
theorem reservedEntriesUntouched : Obligations.ReservedEntriesUntouched :=
  ⟨fun cfg d b sw ws => ⟨powerUp_duty cfg d b sw ws 0 (by decide), powerUp_duty cfg d b sw ws 1 (by decide)⟩,
    fun _ _ _ h => (exec_keeps h).2, fun _ _ h => (step_keeps h).2, fun i s v w => exec_withReserved s v w i,
    Channel.num_ge, fun _ _ => ⟨rfl, rfl⟩⟩

/-! ## The reset values -/

/-- Settles O43: the fields of the power-up state, and the frame of a step. -/
theorem resetValues : Obligations.ResetValues := by
  refine ⟨fun cfg d b sw ws => ?_, ⟨0x00#8, 0x00#8, rfl⟩, fun _ _ h => (step_keeps h).2⟩
  have hduty := powerUp_duty cfg d b sw ws
  exact ⟨fun c => hduty c.num c.num_lt, hduty 0 (by decide), hduty 1 (by decide), rfl, rfl, rfl, rfl, rfl, rfl,
    read_nil, rfl⟩

end Sys2Proof.Machine
end

section
/-! PROOFS. The statements of 20_memory.md on the writes of the duty array and of the ports: `DWR`, `PSET` and `PCLR`,
what each writes and what it leaves. -/

namespace Sys2Proof.Machine

/-! ## Duty writes -/

theorem dutyStore_frame (s : State) (idx : DutyIndex) (v : DutyValue) :
    dutyStore s idx v = { s with duty := (dutyStore s idx v).duty } := by
  unfold dutyStore
  cases channelOfIndex idx with
  | none => rfl
  | some c => rfl

/-- An index that names no channel stores nothing (R71). -/
theorem dutyStore_of_no_channel {idx : DutyIndex} (h : idx.toNat < 2 ∨ 13 < idx.toNat) (s : State) (v : DutyValue) :
    dutyStore s idx v = s := by
  unfold dutyStore
  rw [(channelOfIndex_eq_none idx).2 h]

/-- Each index that `UPDATE` writes to is a channel's (R67, R71). -/
theorem channel_of_updateIndex {k : Nat} (hk : k < 12) :
    ∃ c : Channel, channelOfIndex (BitVec.ofNat 4 (2 + k)) = some c ∧ c.num = 2 + k := by
  have hidx : (BitVec.ofNat 4 (2 + k)).toNat = 2 + k := by rw [BitVec.toNat_ofNat]; omega
  cases hc : channelOfIndex (BitVec.ofNat 4 (2 + k)) with
  | none =>
    have := (channelOfIndex_eq_none _).1 hc
    omega
  | some c => exact ⟨c, rfl, ((channelOfIndex_eq_some _ c).1 hc).trans hidx⟩

/-- Settles O19: `DWR` is the duty store, whose entries and frame are stated by the lemmas on `dutyStore`. -/
theorem dutyWriteEffect : Obligations.DutyWriteEffect := by
  refine ⟨fun idx val s => ⟨dutyStore s idx val, rfl, dutyRead_dutyStore s idx val, ?_⟩,
    fun _ => channel_of_updateIndex⟩
  obtain ⟨h0, h1⟩ := dutyStore_reserved s idx val
  exact ⟨h0, h1, dutyStore_frame s idx val, fun h => dutyStore_of_no_channel h s val⟩

/-! ## Port writes -/

theorem setPort_frame (s : State) (p : PortSel) (v : Byte) :
    s.setPort p v = { s with pd := (s.setPort p v).pd, pb := (s.setPort p v).pb } := by
  cases p <;> rfl

@[simp] theorem setPort_port_same (s : State) (p : PortSel) : s.setPort p (s.port p) = s := by
  cases p <;> rfl

@[simp] theorem setPort_setPort_same (s : State) (p : PortSel) (v w : Byte) :
    (s.setPort p v).setPort p w = s.setPort p w := by
  cases p <;> rfl

/-- What the port held before does not show in the result of `PortSetAll` (R31). -/
theorem portSetAll_setPort_same (s : State) (p : PortSel) (v : Byte) :
    portSetAll (s.setPort p v) p = portSetAll s p := by
  simp only [portSetAll, setPort_cfg, setPort_setPort_same]

/-- Clearing a bit that is 0 changes nothing (R32): every bit of the port is as it was, so the byte written is the old
one. -/
theorem portClrBit_of_clear {s : State} {p : PortSel} {b : BitPos} (h : (s.port p).getLsbD b.val = false) :
    portClrBit s p b = s := by
  have hbyte : (portClrBit s p b).port p = s.port p := by
    refine BitVec.eq_of_getLsbD_eq fun n hn => ?_
    rw [bit_portClrBit s p p b ⟨n, hn⟩]
    by_cases hb : b = ⟨n, hn⟩
    · subst hb; simp [h]
    · simp [hb]
  calc portClrBit s p b = s.setPort p ((portClrBit s p b).port p) := by simp only [portClrBit, port_setPort_same]
    _ = s := by rw [hbyte, setPort_port_same]

/-- The port mapper names `PD[7:2]` and `PB[5:0]` only (R32, R93). -/
theorem portMap_range (c : Channel) :
    ((portMap c).1 = .pd ∧ 2 ≤ (portMap c).2.val) ∨ ((portMap c).1 = .pb ∧ (portMap c).2.val < 6) := by
  cases c <;> decide

/-- Settles O28: `PCLR map(c)` is `PortClrBit`, a write of one port whose bits `bit_portClrBit` gives. -/
theorem portClearOperation : Obligations.PortClearOperation :=
  ⟨bit_portClrBit, fun _ _ _ => portClrBit_of_clear, fun s p _ => setPort_frame s p _, portMap_range,
    fun s c => exec_pclrOf c s⟩

/-- Settles O27: `PSET p` is `PortSetAll`, a write of one port with a byte that the configuration gives. -/
theorem portSetOperation : Obligations.PortSetOperation := by
  intro s p hp
  have hport : (portSetAll s p).port p = 0xFF#8 := (portSetAll_port s p).trans hp
  refine ⟨portSetAll s p, exec_psetOf p s, hport, fun b => ?_, fun q hq => ?_, setPort_frame s p _, fun v => ?_⟩
  · rw [hport]; revert b; decide
  · rw [port_portSetAll, if_neg hq.symm]
  · rw [exec_psetOf, portSetAll_setPort_same]

end Sys2Proof.Machine
end

section
/-! PROOFS. The statements of 30_encoding.md: the reserved words of formats M and P, the words of the duty write and of the
port operations, the value of a field, and the defined subset of format T. -/

namespace Sys2Proof.Machine

/-! ## Reserved words -/

/-- A format M word is its group and its argument (R49). -/
theorem toNat_fieldsM (w : BitVec 8) :
    w.toNat = 16 * (w.extractLsb' 4 4).toNat + (w.extractLsb' 0 4).toNat := by
  simp only [BitVec.extractLsb'_toNat, Nat.shiftRight_eq_div_pow]
  omega

/-- A format P word is its `op`, `p` and `b` (R50). -/
theorem toNat_fieldsP (w : BitVec 5) :
    w.toNat = 16 * (w.extractLsb' 4 1).toNat + 8 * (w.extractLsb' 3 1).toNat + (w.extractLsb' 0 3).toNat := by
  simp only [BitVec.extractLsb'_toNat, Nat.shiftRight_eq_div_pow]
  omega

/-- A format M word is an operation or listed as reserved: the rows of the table and the list of R52 part the words. -/
theorem decodeM_cases (w : BitVec 8) :
    (∃ i, decode (.m w) = .ok i ∧ ¬reservedM w) ∨ (decode (.m w) = .error .reservedMicroop ∧ reservedM w) := by
  have hw := toNat_fieldsM w
  have hlt := w.isLt
  simp only [decode, decodeM, reservedM]
  split
  -- the catch-all, where no row of the table has the word's fields
  case h_19 => exact .inr ⟨rfl, by grind⟩
  all_goals exact .inl ⟨_, rfl, by omega⟩

/-- A format P word is an operation or listed as reserved: the rows of the table and the list of R53 part the words. -/
theorem decodeP_cases (w : BitVec 5) :
    (∃ i, decode (.p w) = .ok i ∧ ¬reservedP w) ∨ (decode (.p w) = .error .reservedPortop ∧ reservedP w) := by
  have hw := toNat_fieldsP w
  have hlt := w.isLt
  simp only [decode, decodeP, reservedP]
  split
  -- the catch-all, where no row of the table has the word's fields
  case h_15 => exact .inr ⟨rfl, by grind⟩
  all_goals exact .inl ⟨_, rfl, by omega⟩

/-- Where a property parts the words that decode from those that are refused, each verdict holds exactly on its side. -/
theorem decode_verdict_iff {f : Frame} {e : DecodeError} {p : Prop}
    (h : (∃ i, decode f = .ok i ∧ ¬p) ∨ (decode f = .error e ∧ p)) :
    (decode f = .error e ↔ p) ∧ ((∃ i, decode f = .ok i) ↔ ¬p) := by
  rcases h with ⟨i, hd, hp⟩ | ⟨hd, hp⟩ <;> simp [hd, hp]

theorem not_reservedM_of_decode {w : BitVec 8} {i : Instr} (h : decode (.m w) = .ok i) : ¬reservedM w :=
  (decode_verdict_iff (decodeM_cases w)).2.1 ⟨i, h⟩

theorem not_reservedP_of_decode {w : BitVec 5} {i : Instr} (h : decode (.p w) = .ok i) : ¬reservedP w :=
  (decode_verdict_iff (decodeP_cases w)).2.1 ⟨i, h⟩

/-- A presented word that is no operation is refused by the name of its error (R124). -/
theorem step_presented_refused {s : State} {f : Frame} {r : List Frame} {e : DecodeError} (h : s.presented = f :: r)
    (hd : decode f = .error e) : step s = .refused (refusalOf e) := by
  have hf : (issue s).frame = f := by simp [issue, h]
  simp only [step, hf, hd]

/-- Settles O3: the table's rows and R52's list part the words, and the selected word is a row. -/
theorem reservedMicroopsRefused : Obligations.ReservedMicroopsRefused :=
  ⟨fun w => (decode_verdict_iff (decodeM_cases w)).1, fun w => (decode_verdict_iff (decodeM_cases w)).2,
    fun s => not_reservedM_of_decode (decode_selectWord s),
    fun _ w _ hp hr => step_presented_refused hp ((decode_verdict_iff (decodeM_cases w)).1.2 hr)⟩

/-! ## Port operations -/

theorem encode_pclrOf (c : Channel) : encode (pclrOf c) =
    .p (1#1 ++ (if (portMap c).1 = .pb then 1#1 else 0#1) ++ BitVec.ofNat 3 (portMap c).2.val) := by
  cases c <;> rfl

theorem encode_psetOf (p : PortSel) : encode (psetOf p) = .p (0#1 ++ (if p = .pb then 1#1 else 0#1) ++ 0#3) := by
  cases p <;> rfl

theorem decode_encode_pclrOf (c : Channel) : decode (encode (pclrOf c)) = .ok (pclrOf c) := by cases c <;> rfl

theorem decode_encode_psetOf (p : PortSel) : decode (encode (psetOf p)) = .ok (psetOf p) := by cases p <;> rfl

/-- The port mapper names none of the four bits without a `PCLR` (R53). -/
theorem portMap_ne_unmapped (c : Channel) :
    portMap c ≠ (.pd, 0) ∧ portMap c ≠ (.pd, 1) ∧ portMap c ≠ (.pb, 6) ∧ portMap c ≠ (.pb, 7) := by
  have hr := portMap_range c
  refine ⟨?_, ?_, ?_, ?_⟩ <;> intro h <;> rw [h] at hr <;> revert hr <;> decide

/-- Settles O4: the table's rows and R53's list part the words, and the words of the engine's port operations are rows. -/
theorem reservedPortopsRefused : Obligations.ReservedPortopsRefused :=
  ⟨fun w => (decode_verdict_iff (decodeP_cases w)).1, fun w => (decode_verdict_iff (decodeP_cases w)).2,
    portMap_ne_unmapped,
    fun c => ⟨_, encode_pclrOf c, not_reservedP_of_decode (encode_pclrOf c ▸ decode_encode_pclrOf c)⟩,
    fun p => ⟨_, encode_psetOf p, not_reservedP_of_decode (encode_psetOf p ▸ decode_encode_psetOf p)⟩,
    fun _ w _ hp hr => step_presented_refused hp ((decode_verdict_iff (decodeP_cases w)).1.2 hr)⟩

/-- `PSET` with `b` other than 000 is on R53's list. -/
theorem reservedP_pset {b : BitVec 3} (h : b ≠ 0#3) (p : BitVec 1) : reservedP (0#1 ++ p ++ b) := by
  have hb : b.toNat ≠ 0 := fun e => h (BitVec.eq_of_toNat_eq e)
  have hlt := b.isLt
  have hp := p.isLt
  have hw : (0#1 ++ p ++ b).toNat = 8 * p.toNat + b.toNat := by
    rw [BitVec.toNat_append, ← Nat.shiftLeft_add_eq_or_of_lt hlt, BitVec.toNat_append]
    simp [Nat.shiftLeft_eq, Nat.mul_comm]
  unfold reservedP
  omega

/-- A compare does nothing or what `PCLR map(c)` does (R94). -/
theorem compareChannel_eq_or_pclr (c : Channel) (s : State) :
    compareChannel s c = s ∨ exec (pclrOf c) s = .next (compareChannel s c) := by
  unfold compareChannel
  split
  · exact .inr (exec_pclrOf c s)
  · exact .inl rfl

/-- Settles O6: the words by the encoder's table, the primitives by the families of operations. -/
theorem portOperationWords : Obligations.PortOperationWords :=
  ⟨⟨encode_psetOf .pd, encode_psetOf .pb⟩, encode_pclrOf,
    fun p _ hb => (decode_verdict_iff (decodeP_cases _)).1.2 (reservedP_pset hb p),
    exec_psetOf, exec_pclrOf, compareChannel_eq_or_pclr⟩

/-! ## Duty words -/

theorem dutyStore_of_channel {idx : DutyIndex} {c : Channel} (h : c.num = idx.toNat) (s : State) (v : DutyValue) :
    dutyStore s idx v = dutyWrite s c v := by
  simp only [dutyStore, (channelOfIndex_eq_some idx c).2 h]

theorem decode_dutyWord (idx : DutyIndex) (val : DutyValue) : decode (.h (idx ++ val)) = .ok (.dwr idx val) := by
  simp only [decode, decodeH, dutyWord_index, dutyWord_value]

/-- Settles O5: the fields of a duty word read back, and `DWR` is the duty store. -/
theorem dutyWordFormat : Obligations.DutyWordFormat := by
  refine ⟨fun idx val => ⟨idx ++ val, rfl, dutyWord_index idx val, dutyWord_value idx val, decode_dutyWord idx val⟩,
    fun _ => rfl, fun idx val s h => ?_, fun idx val s c h => ?_, rfl⟩
  · exact congrArg Host.Outcome.next (dutyStore_of_no_channel h s val)
  · exact congrArg Host.Outcome.next (dutyStore_of_channel h s val)

/-! ## The value of a field -/

theorem digitRun_of_no_digit {f : Field} (h : startsWithDigit f = false) : digitRun f = [] := by
  cases f with
  | nil => rfl
  | cons b r => exact List.takeWhile_cons_of_neg (by simpa [startsWithDigit] using h)

theorem digitRun_append {ds : List Byte} (h : ∀ d ∈ ds, isDigit d = true) (f : Field) :
    digitRun (ds ++ f) = ds ++ digitRun f :=
  List.takeWhile_append_of_pos h

/-- A value already read is worth ten times itself for each digit that follows. -/
theorem decOf_foldl (n : Nat) (ds : List Byte) :
    ds.foldl (fun n d => 10 * n + (d.toNat - 0x30)) n = n * 10 ^ ds.length + decOf ds := by
  induction ds generalizing n with
  | nil => simp [decOf]
  | cons d ds ih =>
    rw [decOf, List.foldl_cons, List.foldl_cons, ih, ih (10 * 0 + _), List.length_cons]
    ring

/-- The leftmost digit counts most (R46). -/
theorem decOf_cons (d : Byte) (ds : List Byte) :
    decOf (d :: ds) = (d.toNat - 0x30) * 10 ^ ds.length + decOf ds := by
  rw [decOf, List.foldl_cons, decOf_foldl, Nat.mul_zero, Nat.zero_add]

theorem decOf_eq_sum (ds : List Byte) :
    decOf ds = ∑ k : Fin ds.length, ((ds.get k).toNat - 0x30) * 10 ^ (ds.length - 1 - k.val) := by
  induction ds with
  | nil => rfl
  | cons d ds ih =>
    rw [decOf_cons, ih]
    simp only [List.length_cons, Fin.sum_univ_succ, List.get_cons_zero, List.get_cons_succ', Fin.val_zero, Fin.val_succ]
    congr 1
    refine Finset.sum_congr rfl fun k _ => ?_
    rw [show ds.length + 1 - 1 - (k.val + 1) = ds.length - 1 - k.val by omega]

theorem decOf_leading_zeros (n : Nat) (ds : List Byte) : decOf (List.replicate n 0x30#8 ++ ds) = decOf ds := by
  induction n with
  | zero => rfl
  | succ n ih => rw [List.replicate_succ, List.cons_append, decOf_cons, ih]; simp

theorem fieldValue_toNat (f : Field) : (fieldValue f).toNat = min (decOf (digitRun f)) 65535 := by
  rw [fieldValue, BitVec.toNat_ofNat]
  exact Nat.mod_eq_of_lt (by simp only [Config.maxDuty]; omega)

/-- Settles O15: the digit run is cut off its tail, and `dec` is the sum by induction on the run. -/
theorem fieldValueOfDigitRun : Obligations.FieldValueOfDigitRun := by
  refine ⟨fun ds tail hds htail => ?_, fun n f => ?_, fun f hf => ?_⟩
  · rw [fieldValue_toNat, digitRun_append hds, digitRun_of_no_digit htail, List.append_nil, decOf_eq_sum]
  · have hz : ∀ d ∈ List.replicate n 0x30#8, isDigit d = true := fun d hd => by
      rw [List.eq_of_mem_replicate hd]; rfl
    rw [fieldValue, fieldValue, digitRun_append hz, decOf_leading_zeros]
  · rw [fieldValue, digitRun_of_no_digit hf]; rfl

/-! ## The defined subset -/

theorem isSpace_iff (b : Byte) : isSpace b = true ↔ b.toNat = 0x20 ∨ 0x09 ≤ b.toNat ∧ b.toNat ≤ 0x0D := by
  simp [isSpace, ← BitVec.toNat_inj]

theorem isSign_iff (b : Byte) : isSign b = true ↔ b.toNat = 0x2B ∨ b.toNat = 0x2D := by
  simp [isSign, ← BitVec.toNat_inj]

theorem isDigit_iff (b : Byte) : isDigit b = true ↔ 0x30 ≤ b.toNat ∧ b.toNat ≤ 0x39 := by
  simp [isDigit]

theorem not_isSpace_of_isSign {b : Byte} (h : isSign b = true) : ¬isSpace b = true := by
  rw [isSign_iff] at h
  rw [isSpace_iff]
  omega

theorem not_isSpace_of_isDigit {b : Byte} (h : isDigit b = true) : ¬isSpace b = true := by
  rw [isDigit_iff] at h
  rw [isSpace_iff]
  omega

theorem not_isSign_of_isDigit {b : Byte} (h : isDigit b = true) : ¬isSign b = true := by
  rw [isDigit_iff] at h
  rw [isSign_iff]
  omega

/-- `dropSign` takes away at most one byte, a sign. -/
theorem dropSign_spec (f : Field) :
    ∃ sg : List Byte, f = sg ++ dropSign f ∧ sg.length ≤ 1 ∧ ∀ b ∈ sg, isSign b = true := by
  cases f with
  | nil => exact ⟨[], rfl, by simp, by simp⟩
  | cons b r =>
    by_cases hb : isSign b = true
    · exact ⟨[b], by simp [dropSign, hb], by simp, by simpa using hb⟩
    · exact ⟨[], by simp [dropSign, hb], by simp, by simp⟩

/-- What follows the white space is a sign, if any, and a digit: no more white space is skipped, and the sign is. -/
theorem dropSign_dropWhile_isSpace {ws sg rest : List Byte} (hws : ∀ b ∈ ws, isSpace b = true) (hlen : sg.length ≤ 1)
    (hsg : ∀ b ∈ sg, isSign b = true) (hrest : startsWithDigit rest = true) :
    dropSign ((ws ++ sg ++ rest).dropWhile isSpace) = rest := by
  rw [List.append_assoc, List.dropWhile_append_of_pos hws]
  match sg, rest with
  | _, [] => cases hrest
  | [], d :: r => simp [dropSign, not_isSpace_of_isDigit hrest, not_isSign_of_isDigit hrest]
  | [b], d :: r =>
    have hb : isSign b = true := hsg b (by simp)
    simp [dropSign, not_isSpace_of_isSign hb, hb]
  | _ :: _ :: _, _ => simp at hlen

/-- The two skips of the model find R55's cut of a field: white space, a sign, a digit and anything. -/
theorem outsideSubset_iff (f : Field) : outsideSubset f = true ↔ startsWithDigit f = false ∧
    ∃ ws sg rest : List Byte, f = ws ++ sg ++ rest ∧ (∀ b ∈ ws, isSpace b = true) ∧ sg.length ≤ 1 ∧
      (∀ b ∈ sg, isSign b = true) ∧ startsWithDigit rest = true := by
  rw [outsideSubset, Bool.and_eq_true, Bool.not_eq_true']
  refine and_congr_right fun _ => ⟨fun h => ?_, ?_⟩
  · obtain ⟨sg, hcut, hlen, hsg⟩ := dropSign_spec (f.dropWhile isSpace)
    refine ⟨f.takeWhile isSpace, sg, _, ?_, fun b => List.mem_takeWhile_imp, hlen, hsg, h⟩
    rw [List.append_assoc, ← hcut, List.takeWhile_append_dropWhile]
  · rintro ⟨ws, sg, rest, rfl, hws, hlen, hsg, hrest⟩
    rwa [dropSign_dropWhile_isSpace hws hlen hsg hrest]

theorem lineVerdict_of_outsideSubset {cfg : Config} {line : List Byte} (hc : cfg.fieldPrefix = .refuse)
    (h : ∃ f ∈ writtenFields cfg line, outsideSubset f = true) : lineVerdict cfg line = some .fieldPrefix :=
  if_pos ⟨hc, List.any_eq_true.2 h⟩

/-- The service procedure refuses an update by the verdict on its line. -/
theorem service_refused {s : State} {bytes : List Byte} {r : Refusal} (h0 : bytes ≠ [])
    (hr : rejectsSweep s.cfg bytes = false) (hv : lineVerdict s.cfg (sweepLine bytes) = some r) :
    serviceAfterPoll (pollSweep s bytes) = .refused r := by
  rcases service_cases s bytes with ⟨hn, -⟩ | ⟨r', hv', hs⟩ | ⟨-, hv', -⟩
  · rcases (pollSweep_noUpdate s bytes).1 hn with h | h
    · exact absurd h h0
    · rw [hr] at h; cases h
  · rw [hv] at hv'
    cases hv'
    exact hs
  · rw [hv] at hv'; cases hv'

/-- Settles O16: the two skips find R55's cut, and the verdict of a line with such a field is the service's. -/
theorem definedSubsetOfFields : Obligations.DefinedSubsetOfFields :=
  ⟨outsideSubset_iff, fun _ _ h0 hr hc hf => service_refused h0 hr (lineVerdict_of_outsideSubset hc hf)⟩

end Sys2Proof.Machine
end

section
/-! PROOFS. The front-end of 40_update_frontend.md: `POLL`, `UPDATE`, `LBCLR` and the service procedure in terms of them. -/

namespace Sys2Proof.Machine

/-! ## Sequencing -/

theorem andThen_eq_next_iff {o : Host.Outcome State Fault Refusal} {f : State → Host.Outcome State Fault Refusal}
    {t : State} : andThen o f = .next t ↔ ∃ s, o = .next s ∧ f s = .next t := by
  cases o <;> simp [andThen]

/-- What follows an operation matters only on the states that the operation can leave. -/
theorem andThen_congr {o : Host.Outcome State Fault Refusal} {f g : State → Host.Outcome State Fault Refusal}
    (h : ∀ s, o = .next s → f s = g s) : andThen o f = andThen o g := by
  cases o with
  | next s => exact h s rfl
  | fault r => rfl
  | refused r => rfl

/-! ## POLL -/

theorem exec_poll (s : State) : exec .poll s = .next (poll s).2 := rfl

theorem exec_update (s : State) : exec .update s = parseLine s := rfl

theorem takeSweep_state (s : State) : (takeSweep s).2 = { s with sweeps := s.sweeps.tail } := by
  obtain ⟨cfg, duty, pd, pb, phase, z, x, i, lb, wp, sweeps, writes, presented⟩ := s
  cases sweeps <;> rfl

/-- An empty read answers no update, and only the list of coming sweeps moves on (R62). -/
theorem poll_of_no_byte {s : State} (h : (takeSweep s).1 = []) :
    poll s = (.noUpdate, { s with sweeps := s.sweeps.tail }) := by
  rw [poll, h, takeSweep_state]
  simp [pollSweep]

theorem poll_of_sweeps {s : State} {bytes : List Byte} {rest : List (List Byte)} (h : s.sweeps = bytes :: rest) :
    poll s = pollSweep { s with sweeps := rest } bytes := by
  simp only [poll, takeSweep, h]

/-- Without a byte `POLL` completes with no update (R62). -/
theorem execPoll_of_no_byte {s : State} (h : (takeSweep s).1 = []) :
    (poll s).1 = .noUpdate ∧ exec .poll s = .next { s with sweeps := s.sweeps.tail } := by
  have hp := poll_of_no_byte h
  rw [exec_poll, hp]
  exact ⟨rfl, rfl⟩

/-- The fill pointer stands at the terminator, after the bytes stored (R61, R64). -/
theorem pollSweep_pointer {s : State} {bytes : List Byte} (h0 : bytes ≠ [])
    (hr : rejectsSweep s.cfg bytes = false) : (pollSweep s bytes).2.wp.val = min bytes.length 49 := by
  rw [pollSweep_update h0 hr]
  simpa using storeSweep_pointer bytes s.lb 0

theorem pollSweep_updateAvailable {s : State} {bytes : List Byte} (h0 : bytes ≠ [])
    (hr : rejectsSweep s.cfg bytes = false) : (pollSweep s bytes).1 = .updateAvailable := by
  rw [pollSweep_update h0 hr]

/-- The reader writes the line buffer and its fill pointer and takes the sweep, and changes nothing else. -/
theorem poll_frame (s : State) :
    (poll s).2 = { s with lb := (poll s).2.lb, wp := (poll s).2.wp, sweeps := (poll s).2.sweeps } := by
  unfold poll pollSweep
  rw [takeSweep_state]
  split <;> rfl

/-- Settles O11: `POLL` is the reader on the coming sweep, whose answer, buffer and fill pointer are stated by the lemmas on
`pollSweep`. -/
theorem pollStoresTheSweep : Obligations.PollStoresTheSweep := by
  refine ⟨rfl, fun s => execPoll_of_no_byte, fun s bytes rest hs h0 hr => ?_⟩
  have hframe := poll_frame s
  rw [exec_poll]
  rw [poll_of_sweeps hs] at hframe ⊢
  exact ⟨pollSweep_updateAvailable h0 hr, _, rfl, pollSweep_read h0 hr, pollSweep_pointer h0 hr,
    pollSweep_sweeps _ bytes, hframe⟩

/-! ## UPDATE -/

/-- The line that the buffer holds is what the parser reads (R67). -/
theorem line_of_lineAt {m : Memory} {n : LinePos} {text : List Byte} (h : LineAt m n text) : m.line = text := by
  obtain ⟨hend, hlen, hread⟩ := h
  have hlt : text.length < 50 := hlen ▸ n.isLt
  have hn : (⟨text.length, hlt⟩ : LinePos) = n := Fin.ext hlen
  rw [line_of_prefix hlt (fun a ha => (hread a (hlen ▸ ha)).1) (hn ▸ hend)]
  refine List.takeWhile_eq_self_iff.2 fun b hb => ?_
  obtain ⟨k, hk, rfl⟩ := List.mem_iff_getElem.1 hb
  obtain ⟨hbyte, hne⟩ := hread ⟨k, by omega⟩ (hlen ▸ hk)
  rw [List.getElem?_eq_getElem hk, Option.some_inj] at hbyte
  simpa [hbyte] using hne

theorem lineFields_of_zero {cfg : Config} (h : cfg.emptyField = .zero) (line : List Byte) :
    lineFields cfg line = splitFields line := by
  simp only [lineFields, h]

theorem lineVerdict_none_of_inside {cfg : Config} {line : List Byte} (hs : cfg.fieldOverflow = .saturate)
    (h : ∀ f ∈ writtenFields cfg line, outsideSubset f = false) : lineVerdict cfg line = none := by
  have hany : (writtenFields cfg line).any outsideSubset = false := by simpa using h
  simp [lineVerdict, hany, hs]

/-- The loop of `UPDATE`, from field `k` on, is the duty writes of the fields below 12 in ascending order (R67, R69). -/
theorem writeFields_eq_duty_writes (s : State) (k : Nat) (fs : List Field) :
    .next (writeFields s k fs) = ((fs.take (12 - k)).zipIdx k).foldl
      (fun o p => andThen o (exec (.dwr (BitVec.ofNat 4 (2 + p.2)) (fieldValue p.1)))) (.next s) := by
  induction fs generalizing s k with
  | nil => simp [writeFields]
  | cons f fs ih =>
    rw [writeFields, ih]
    by_cases hk : k < 12
    · rw [if_pos hk, show 12 - k = 12 - (k + 1) + 1 by omega]
      rfl
    · have h0 : 12 - k = 0 := by omega
      have h1 : 12 - (k + 1) = 0 := by omega
      rw [if_neg hk, h0, h1]
      rfl

/-- After the loop every channel's entry holds the value of its field, if the line has one (R67, R69). -/
theorem dutyRead_writeFields_eq_entryAfter (s : State) (fs : List Field) (c : Channel) :
    dutyRead (writeFields s 0 fs) c = entryAfter s fs c := by
  have hc : c.num - 2 < 12 := by have := c.num_lt; omega
  rw [dutyRead_writeFields, if_pos (Nat.zero_le _), entryAfter, List.getElem?_take_of_lt hc, Nat.sub_zero]
  cases fs[c.num - 2]? <;> rfl

theorem writeFields_frame (s : State) (k : Nat) (fs : List Field) :
    writeFields s k fs = { s with duty := (writeFields s k fs).duty } := by
  induction fs generalizing s k with
  | nil => rfl
  | cons f fs ih =>
    rw [writeFields]
    refine (ih _ _).trans ?_
    split <;> simp

/-- Settles O17: the parser reads the line of the buffer, its verdict is that of the first twelve fields, and its loop is
the duty writes. -/
theorem updateParsesTheLine : Obligations.UpdateParsesTheLine := by
  refine ⟨rfl, fun s n line hline hprefix hempty hover => ?_⟩
  have hl : s.lb.line = line := line_of_lineAt hline
  have hf : lineFields s.cfg line = splitFields line := lineFields_of_zero hempty line
  have hw : writtenFields s.cfg line = (splitFields line).take 12 := by rw [writtenFields, hf]
  refine ⟨fun hout => ?_, fun hin => ?_⟩
  · have hv := lineVerdict_of_outsideSubset hprefix (hw ▸ hout)
    simp only [exec_update, parseLine, hl, hv]
  · have hv := lineVerdict_none_of_inside hover (hw ▸ hin)
    have hu : exec .update s = .next (writeFields s 0 (splitFields line)) := by
      simp only [exec_update, parseLine, hl, hv, hf]
    obtain ⟨h0, h1⟩ := writeFields_reserved s 0 (splitFields line)
    exact ⟨hu.trans (writeFields_eq_duty_writes s 0 _), _, hu, dutyRead_writeFields_eq_entryAfter s _, h0, h1,
      writeFields_frame s 0 _⟩

/-! ## The service procedure -/

/-- A completed `UPDATE` has written duty entries and nothing else. -/
theorem update_frame {s t : State} (h : exec .update s = .next t) : t = { s with duty := t.duty } := by
  rw [exec_update] at h
  rcases parseLine_cases s with ⟨r, -, hr⟩ | ⟨-, hx⟩
  · rw [hr] at h; cases h
  · rw [hx] at h
    obtain rfl := Host.Outcome.next.inj h
    exact writeFields_frame s 0 _

theorem exec_svc (s : State) : exec .svc s = andThen (serviceAfterPoll (poll s)) fun t =>
    .next { landWrites t with phase := firstReset t.cfg } := rfl

theorem serviceAfterPoll_of_update {q : PollResult × State} (h : q.1 = .updateAvailable) :
    serviceAfterPoll q = andThen (exec .update q.2) fun b => .next (clearLine b) := by
  obtain ⟨r, t⟩ := q
  subst h
  rfl

theorem serviceAfterPoll_of_noUpdate {q : PollResult × State} (h : q.1 = .noUpdate) :
    serviceAfterPoll q = .next q.2 := by
  obtain ⟨r, t⟩ := q
  subst h
  rfl

/-- `SVC` with an update, in every state: the service procedure, then the arrived duty writes (R75, R79). -/
theorem svc_of_update {s : State} (h : (poll s).1 = .updateAvailable) :
    exec .svc s = andThen (exec .poll s) fun a => andThen (exec .update a) fun b => andThen (exec .lbclr b) fun c =>
      .next { landWrites c with phase := firstReset s.cfg } := by
  rw [exec_svc, serviceAfterPoll_of_update h]
  change _ = andThen (exec .update (poll s).2) fun b => .next { landWrites (clearLine b) with phase := firstReset s.cfg }
  cases hu : exec .update (poll s).2 with
  | next b =>
    have hcfg : b.cfg = s.cfg := (exec_keeps hu).1.trans (poll_cfg s)
    simp only [andThen, clearLine_cfg, hcfg]
  | fault r => rfl
  | refused r => rfl

/-- `SVC` without an update, in every state: `POLL`, then the arrived duty writes (R75, R79). -/
theorem svc_of_noUpdate {s : State} (h : (poll s).1 = .noUpdate) :
    exec .svc s = andThen (exec .poll s) fun a => .next { landWrites a with phase := firstReset s.cfg } := by
  rw [exec_svc, serviceAfterPoll_of_noUpdate h, exec_poll]
  simp only [andThen, poll_cfg]

/-- Settles O20: `LBCLR` empties the line space, and it runs last of the service procedure. -/
theorem lineBufferCleared : Obligations.LineBufferCleared := by
  refine ⟨rfl, fun s => ⟨clearLine s, rfl, read_nil, rfl, rfl⟩, fun s t hp h => ?_⟩
  rw [svc_of_update hp] at h
  obtain ⟨a, -, h⟩ := andThen_eq_next_iff.1 h
  obtain ⟨b, -, h⟩ := andThen_eq_next_iff.1 h
  obtain rfl := Host.Outcome.next.inj h
  simp [read_nil]

/-- Settles O21: what the service procedure leaves has the write port of the state before it, from which no word lands. -/
theorem serviceRunsPollUpdateClear : Obligations.ServiceRunsPollUpdateClear := by
  refine ⟨fun s hw hp => ?_, fun s hw hp => ?_⟩
  · rw [svc_of_update hp]
    refine andThen_congr fun a ha => andThen_congr fun b hb => andThen_congr fun c hc => ?_
    obtain rfl := Host.Outcome.next.inj ha
    obtain rfl := Host.Outcome.next.inj hc
    have hbw : b.writes = s.writes := by rw [update_frame hb]; exact poll_writes s
    rw [landWrites_of_none (by simpa [hbw] using hw)]
  · rw [svc_of_noUpdate hp]
    refine andThen_congr fun a ha => ?_
    obtain rfl := Host.Outcome.next.inj ha
    rw [landWrites_of_none (by simpa using hw)]

end Sys2Proof.Machine
end

section
/-! PROOFS. Runs of the engine between two service windows: every step completes, leaves the duty array and the front-end
alone, and moves to the next step number of the iteration (41_cycle_controller.md R85); with it the empty read of
40_update_frontend.md R62, after which a full cycle is rendered. -/

namespace Sys2Proof.Machine

/-! ## Step numbers -/

theorem iterStep_of_service {s : State} (h : s.phase = .service) : s.iterStep = 0 := by
  simp only [State.iterStep, h]

theorem iterStep_of_firstReset {s : State} (h : s.phase = firstReset s.cfg) : s.iterStep = 1 + 3074 * s.z := by
  unfold State.iterStep
  rw [h, firstReset]
  cases s.cfg.prstOrder <;> rfl

theorem iterStep_of_cmp {s : State} (h : s.phase = .cmp) :
    s.iterStep = 1 + 3074 * s.z + (2 + 12 * s.x.toNat + (s.i.num - 2)) := by
  simp only [State.iterStep, h]

/-- Outside the service window the step number is one of the 3074 of cycle `z`. -/
theorem iterStep_in_cycle {s : State} (hp : s.phase ≠ .service) :
    1 + 3074 * s.z ≤ s.iterStep ∧ s.iterStep < 1 + 3074 * (s.z + 1) := by
  have hx := s.x.isLt
  have h14 := s.i.num_lt
  unfold State.iterStep
  cases h : s.phase with
  | service => exact absurd h hp
  | rstd => simp only; split <;> omega
  | rstb => simp only; split <;> omega
  | cmp => simp only; omega

theorem iterStep_lt {s : State} (hl : s.positionLegal = true) : s.iterStep < iterLength s.cfg := by
  obtain ⟨hK, -, -⟩ := (positionLegal_iff s).1 hl
  unfold iterLength
  by_cases hp : s.phase = .service
  · rw [iterStep_of_service hp]; omega
  · have := iterStep_in_cycle hp
    omega

/-- `t` stands at the legal position whose step number follows that of `s`, which is 0 after the last (R85). -/
def State.Follows (t s : State) : Prop :=
  t.positionLegal = true ∧ t.iterStep = (s.iterStep + 1) % iterLength s.cfg

theorem follows_of_succ {s t : State} (hl : t.positionLegal = true) (hcfg : t.cfg = s.cfg)
    (h : t.iterStep = s.iterStep + 1) : t.Follows s :=
  ⟨hl, h.trans (Nat.mod_eq_of_lt (h ▸ hcfg ▸ iterStep_lt hl)).symm⟩

theorem follows_of_last {s t : State} (hl : t.positionLegal = true) (h : t.iterStep = 0)
    (hlast : s.iterStep + 1 = iterLength s.cfg) : t.Follows s :=
  ⟨hl, by rw [h, hlast, Nat.mod_self]⟩

/-- The service window is followed by the first reset of the first cycle. -/
theorem follows_service {s t : State} (hl : s.positionLegal = true) (hp : s.phase = .service)
    (hcfg : t.cfg = s.cfg) (hphase : t.phase = firstReset t.cfg) (hz : t.z = s.z) (hx : t.x = s.x) (hi : t.i = s.i) :
    t.Follows s := by
  obtain ⟨hK, hz0, hstart⟩ := (positionLegal_iff s).1 hl
  have ht : t.positionLegal = true := by
    rw [positionLegal_iff, hcfg, hz, hx, hi]
    exact ⟨hK, fun _ => hz0 hp, fun _ => hstart (by simp [hp])⟩
  exact follows_of_succ ht hcfg (by rw [iterStep_of_firstReset hphase, hz, hz0 hp, iterStep_of_service hp])

/-- The first port reset of a cycle is followed by the other, and that by the first compare. -/
theorem follows_reset {s : State} {ph : Phase} (hl : s.positionLegal = true)
    (h : s.phase = .rstd ∧ ph = phaseAfterRstd s.cfg ∨ s.phase = .rstb ∧ ph = phaseAfterRstb s.cfg) :
    ({ s with phase := ph } : State).Follows s := by
  obtain ⟨hK, -, hstart⟩ := (positionLegal_iff s).1 hl
  obtain ⟨hx, hi⟩ := hstart (by rcases h with ⟨hp, -⟩ | ⟨hp, -⟩ <;> simp [hp])
  have hservice : ph ≠ .service := by
    rcases h with ⟨-, rfl⟩ | ⟨-, rfl⟩ <;> simp only [phaseAfterRstd, phaseAfterRstb] <;> split <;> simp
  refine follows_of_succ ((positionLegal_iff _).2 ⟨hK, fun h => absurd h hservice, fun _ => ⟨hx, hi⟩⟩) rfl ?_
  rcases h with ⟨hp, rfl⟩ | ⟨hp, rfl⟩ <;> cases ho : s.cfg.prstOrder <;>
    simp [State.iterStep, phaseAfterRstd, phaseAfterRstb, hp, ho, hx, hi, Channel.num]

theorem firstReset_cases (cfg : Config) : firstReset cfg = .rstd ∨ firstReset cfg = .rstb := by
  unfold firstReset
  cases cfg.prstOrder <;> simp

/-- A compare is followed by the next of its pass, the next pass, the next cycle, or the service window (R82 to R84). -/
theorem follows_advance {s : State} (hl : s.positionLegal = true) (hp : s.phase = .cmp) :
    (advance s s.i).Follows s := by
  obtain ⟨hK, -, -⟩ := (positionLegal_iff s).1 hl
  have hn := iterStep_of_cmp hp
  have h13 (h : s.i = .c13) : s.i.num = 13 := by rw [h]; rfl
  rcases advance_cases s s.i with ⟨hi, d, hd, ha⟩ | ⟨hi, h255, ha⟩ | ⟨hi, h255, hz, ha⟩ | ⟨hi, h255, hz, ha⟩ <;> rw [ha]
  · have h2 := s.i.num_ge
    refine follows_of_succ (by simp [positionLegal_iff, hp, hK]) rfl ?_
    rw [hn, iterStep_of_cmp (s := { s with i := d }) hp]
    simp only [hd]
    omega
  · have hx1 : (s.x + 1#8).toNat = s.x.toNat + 1 := by bv_omega
    refine follows_of_succ (by simp [positionLegal_iff, hp, hK]) rfl ?_
    rw [hn, h13 hi, iterStep_of_cmp (s := { s with i := .c2, x := s.x + 1#8 }) hp]
    simp only [hx1, Channel.num]
    omega
  · have hz1 : s.z + 1 < s.cfg.K := by omega
    refine follows_of_succ ?_ rfl ?_
    · rcases firstReset_cases s.cfg with h | h <;> simp [positionLegal_iff, h, hz1]
    · rw [hn, h13 hi, h255, iterStep_of_firstReset rfl]
      simp only
      omega
  · have hK0 : 0 < s.cfg.K := by omega
    refine follows_of_last (by simp [positionLegal_iff, hK0]) (iterStep_of_service rfl) ?_
    rw [hn, h13 hi, h255, iterLength]
    omega

/-- A step of the engine goes from a legal position to the next step number of the iteration, and from its last to 0. -/
theorem step_follows {s t : State} (hl : s.positionLegal = true) (he : s.engineTurn) (h : step s = .next t) :
    t.Follows s := by
  rcases step_engine_cases he h with ⟨hp, u, hu, rfl⟩ | ⟨hp, rfl⟩ | ⟨hp, rfl⟩ | ⟨hp, rfl⟩
  · obtain ⟨hcfg, -, -, -, hz, hx, hi, -⟩ := serviceOfPoll_frame hu
    exact follows_service hl hp ((landWrites_cfg u).trans hcfg) (by simp) ((landWrites_z u).trans hz)
      ((landWrites_x u).trans hx) ((landWrites_i u).trans hi)
  · exact follows_reset hl (.inl ⟨hp, rfl⟩)
  · exact follows_reset hl (.inr ⟨hp, rfl⟩)
  · -- the compare itself touches the ports only, so the counters go on as from `s`
    have hc : (advance (compareChannel s s.i) (compareChannel s s.i).i).Follows (compareChannel s s.i) :=
      follows_advance (by simpa [State.positionLegal] using hl) (by simpa using hp)
    simpa [State.Follows, State.positionLegal, State.iterStep] using hc

theorem position_of_iterStep_zero {s : State} (hl : s.positionLegal = true) (h : s.iterStep = 0) :
    s.phase = .service ∧ s.z = 0 ∧ s.x = 0#8 ∧ s.i = .c2 := by
  obtain ⟨-, hz, hstart⟩ := (positionLegal_iff s).1 hl
  have hp : s.phase = .service := by
    by_contra hp
    have := iterStep_in_cycle hp
    omega
  exact ⟨hp, hz hp, hstart (by simp [hp])⟩

/-- The number of a cycle's first step is that of its first port reset, and of no other position. -/
theorem position_of_cycleStart {s : State} {m : Nat} (hl : s.positionLegal = true) (h : s.iterStep = 1 + 3074 * m) :
    s.phase = firstReset s.cfg ∧ s.z = m ∧ s.x = 0#8 ∧ s.i = .c2 := by
  obtain ⟨-, -, hstart⟩ := (positionLegal_iff s).1 hl
  have hservice : s.phase ≠ .service := fun hp => by
    rw [iterStep_of_service hp] at h
    omega
  have hz : s.z = m := by
    have := iterStep_in_cycle hservice
    omega
  have hp : s.phase = firstReset s.cfg := by
    cases hp : s.phase with
    | service => exact absurd hp hservice
    | rstd => cases ho : s.cfg.prstOrder <;> simp [State.iterStep, firstReset, hp, ho, hz] at h ⊢
    | rstb => cases ho : s.cfg.prstOrder <;> simp [State.iterStep, firstReset, hp, ho, hz] at h ⊢
    | cmp => rw [iterStep_of_cmp hp] at h; omega
  exact ⟨hp, hz, hstart (by rcases firstReset_cases s.cfg with h | h <;> simp [hp, h])⟩

/-! ## Runs -/

theorem core_run_succ (n : Nat) (s : State) : Sys2Proof.core.run (n + 1) s = andThen (step s) (Sys2Proof.core.run n) := by
  refine (Host.Core.run.eq_2 Sys2Proof.core s n).trans ?_
  change _ = andThen (Sys2Proof.core.step s) _
  cases Sys2Proof.core.step s <;> rfl

theorem core_run_succ_last (n : Nat) (s : State) :
    Sys2Proof.core.run (n + 1) s = andThen (Sys2Proof.core.run n s) step := by
  induction n generalizing s with
  | zero =>
    rw [core_run_succ]
    change andThen (step s) .next = step s
    cases step s <;> rfl
  | succ n ih =>
    rw [core_run_succ, core_run_succ n]
    cases step s with
    | next t => exact ih t
    | fault r => rfl
    | refused r => rfl

/-- What the engine leaves as it was from one service window to the next: the configuration, the duty array, the front-end,
and that it is alone. -/
structure State.Rendered (t s : State) : Prop where
  cfg : t.cfg = s.cfg
  duty : t.duty = s.duty
  lb : t.lb = s.lb
  wp : t.wp = s.wp
  alone : t.engineAlone

theorem State.Rendered.trans {s t u : State} (hu : u.Rendered t) (ht : t.Rendered s) : u.Rendered s :=
  ⟨hu.cfg.trans ht.cfg, hu.duty.trans ht.duty, hu.lb.trans ht.lb, hu.wp.trans ht.wp, hu.alone⟩

/-- Outside the service window the engine's step completes, and renders. -/
theorem step_renders {s : State} (ha : s.engineAlone) (hp : s.phase ≠ .service) :
    ∃ t, step s = .next t ∧ t.Rendered s := by
  have he := engineTurn_of_alone ha
  obtain ⟨hpres, hquiet⟩ := ha
  have hquiet' : s.cfg.hostWriteWindow = .serviceOnly ∨ tickWrites s.writes = [] :=
    hquiet.imp_right fun h => by rw [h]; rfl
  rw [step_engine he]
  cases h : s.phase with
  | service => exact absurd h hp
  | rstd => exact ⟨_, rfl, by constructor <;> simp [State.engineAlone, hpres, hquiet']⟩
  | rstb => exact ⟨_, rfl, by constructor <;> simp [State.engineAlone, hpres, hquiet']⟩
  | cmp =>
    simp only [exec_cmpOf]
    exact ⟨_, rfl, by constructor <;> simp [State.engineAlone, hpres, hquiet']⟩

/-- From the first port reset on, the engine alone runs to any later step of the iteration, and to the service window after
its last. -/
theorem run_renders {s : State} (hl : s.positionLegal = true) (ha : s.engineAlone) (h0 : 0 < s.iterStep) (n : Nat)
    (hn : s.iterStep + n ≤ iterLength s.cfg) :
    ∃ t, Sys2Proof.core.run n s = .next t ∧ t.Rendered s ∧ t.positionLegal = true ∧
      t.iterStep = (s.iterStep + n) % iterLength s.cfg := by
  induction n with
  | zero => exact ⟨s, rfl, ⟨rfl, rfl, rfl, rfl, ha⟩, hl, (Nat.mod_eq_of_lt (iterStep_lt hl)).symm⟩
  | succ n ih =>
    obtain ⟨t, hrun, hr, htl, htn⟩ := ih (by omega)
    rw [Nat.mod_eq_of_lt (by omega)] at htn
    have hp : t.phase ≠ .service := fun h => by rw [iterStep_of_service h] at htn; omega
    obtain ⟨u, hu, hur⟩ := step_renders hr.alone hp
    obtain ⟨hul, hun⟩ := step_follows htl (engineTurn_of_alone hr.alone) hu
    refine ⟨u, ?_, hur.trans hr, hul, ?_⟩
    · rw [core_run_succ_last, hrun]; exact hu
    · rw [hun, htn, hr.cfg]; rfl

/-- The 3074 steps of a cycle end at the start of the next cycle of the burst, or in the service window after the last. -/
theorem run_cycle {s : State} (hl : s.positionLegal = true) (ha : s.engineAlone) (hp : s.phase = firstReset s.cfg) :
    ∃ t, Sys2Proof.core.run 3074 s = .next t ∧ t.Rendered s ∧ t.x = 0#8 ∧ t.i = .c2 ∧
      ((s.z + 1 < s.cfg.K ∧ t.phase = firstReset s.cfg ∧ t.z = s.z + 1) ∨
        (s.z + 1 = s.cfg.K ∧ t.phase = .service ∧ t.z = 0)) := by
  obtain ⟨hK, -, -⟩ := (positionLegal_iff s).1 hl
  have hn := iterStep_of_firstReset hp
  have hL : iterLength s.cfg = 1 + 3074 * s.cfg.K := rfl
  obtain ⟨t, hrun, hr, htl, htn⟩ := run_renders hl ha (by omega) 3074 (by omega)
  by_cases hlast : s.z + 1 = s.cfg.K
  · have h0 : t.iterStep = 0 := by
      rw [htn, show s.iterStep + 3074 = iterLength s.cfg by omega, Nat.mod_self]
    obtain ⟨hphase, hz, hx, hi⟩ := position_of_iterStep_zero htl h0
    exact ⟨t, hrun, hr, hx, hi, .inr ⟨hlast, hphase, hz⟩⟩
  · have h1 : t.iterStep = 1 + 3074 * (s.z + 1) := by
      rw [htn, Nat.mod_eq_of_lt (by omega)]
      omega
    obtain ⟨hphase, hz, hx, hi⟩ := position_of_cycleStart htl h1
    exact ⟨t, hrun, hr, hx, hi, .inl ⟨by omega, hr.cfg ▸ hphase, hz⟩⟩

/-! ## The empty read -/

/-- The `SVC` of an empty read, no duty write waiting, does nothing but move on (R62, R75). -/
theorem step_of_emptyRead {s : State} (hp : s.phase = .service) (hpres : s.presented = []) (hw : s.writes = [])
    (h : (takeSweep s).1 = []) :
    step s = .next { s with sweeps := s.sweeps.tail, phase := firstReset s.cfg } := by
  obtain ⟨hno, hpoll⟩ := execPoll_of_no_byte h
  have hsvc := serviceRunsPollUpdateClear.2 s (by rw [hw]; rfl) hno
  rw [step_engine (engineTurn_of_alone ⟨hpres, .inr hw⟩), hp]
  simp only [hsvc, hpoll, andThen, settle, hw, tickWrites]
  simp

/-- Settles O12: the `SVC` of an empty read only moves on to the start of the first cycle, and from there a cycle runs. -/
theorem emptyReadChangesNothing : Obligations.EmptyReadChangesNothing := by
  refine ⟨fun s => execPoll_of_no_byte, fun s hl hp hpres hw hread => ?_⟩
  obtain ⟨-, hz, -⟩ := (positionLegal_iff s).1 hl
  have hstep := step_of_emptyRead hp hpres hw hread
  obtain ⟨hul, -⟩ := step_follows hl (engineTurn_of_alone ⟨hpres, .inr hw⟩) hstep
  obtain ⟨t, hrun, hr, hx, hi, hend⟩ := run_cycle hul ⟨hpres, .inr hw⟩ rfl
  refine ⟨hstep, t, ?_, hr.duty, hr.lb, hr.wp, hx, hi, ?_⟩
  · rw [Nat.add_comm, core_run_succ, hstep]
    exact hrun
  · simp only [hz hp, Nat.zero_add] at hend
    exact hend.imp_right fun ⟨hK, h⟩ => ⟨hK.symm, h⟩

end Sys2Proof.Machine
end

section
/-! PROOFS. The waveform cycle controller of 41_cycle_controller.md: the per-cycle port resets, and a step of the engine as
the case of `EngineStep` (R78) that its phase selects. -/

namespace Sys2Proof.Machine

/-! ## The configurations of this hardware's engine -/

theorem standardEngine_iff (cfg : Config) : cfg.standardEngine = true ↔
    1 ≤ cfg.K ∧ cfg.allHighPd = 0xFF#8 ∧ cfg.allHighPb = 0xFF#8 ∧ cfg.prstOrder = .dThenB := by
  simp [Config.standardEngine, and_assoc]

theorem wf_of_standardEngine {cfg : Config} (h : cfg.standardEngine = true) : cfg.wf = true := by
  obtain ⟨hK, hd, hb, -⟩ := (standardEngine_iff cfg).1 h
  simp [Config.wf, hK, hd, hb]

theorem firstReset_of_standardEngine {cfg : Config} (h : cfg.standardEngine = true) : firstReset cfg = .rstd := by
  obtain ⟨-, -, -, ho⟩ := (standardEngine_iff cfg).1 h
  simp only [firstReset, ho]

/-! ## The port resets -/

theorem exec_rstd (s : State) : exec .rstd s = .next { portSetAll s .pd with phase := phaseAfterRstd s.cfg } := rfl

theorem exec_rstb (s : State) : exec .rstb s = .next { portSetAll s .pb with phase := phaseAfterRstb s.cfg } := rfl

/-- `RSTD` under this hardware's port bytes and order (R80). -/
theorem exec_rstd_of_standardEngine {s : State} (h : s.cfg.standardEngine = true) :
    exec .rstd s = .next { s with pd := 0xFF#8, phase := .rstb } := by
  obtain ⟨-, hd, -, ho⟩ := (standardEngine_iff s.cfg).1 h
  simp only [exec_rstd, portSetAll, State.setPort, allHigh, phaseAfterRstd, hd, ho]

/-- `RSTB` under this hardware's port bytes and order (R81). -/
theorem exec_rstb_of_standardEngine {s : State} (h : s.cfg.standardEngine = true) :
    exec .rstb s = .next { s with pb := 0xFF#8, phase := .cmp } := by
  obtain ⟨-, -, hb, ho⟩ := (standardEngine_iff s.cfg).1 h
  simp only [exec_rstb, portSetAll, State.setPort, allHigh, phaseAfterRstb, hb, ho]

/-- Channels 2 to 7 are the lines of `PD` (R93). -/
theorem portMap_pd_iff (c : Channel) : (portMap c).1 = .pd ↔ c.num < 8 := by
  cases c <;> decide

/-- Channels 8 to 13 are the lines of `PB` (R93). -/
theorem portMap_pb_iff (c : Channel) : (portMap c).1 = .pb ↔ 8 ≤ c.num := by
  cases c <;> decide

/-- A state with the ports of a `PSET` has the lines of its port high, and the others as they were. -/
theorem out_of_portSetAll_ports {s t : State} {p : PortSel} (h : s.cfg.wf = true) (hd : t.pd = (portSetAll s p).pd)
    (hb : t.pb = (portSetAll s p).pb) (c : Channel) : t.out c = if (portMap c).1 = p then true else s.out c :=
  (out_congr hd hb c).trans (out_portSetAll h p c)

/-- The words of the compares lie above those of the other micro-operations (R49). -/
theorem selectWord_ne_of_cmp {s : State} {w : BitVec 8} (h : s.phase = .cmp) (hw : w.toNat < 0x20) :
    selectWord s ≠ w := by
  rintro rfl
  have := s.i.num_lt
  simp only [selectWord, h, BitVec.toNat_add, BitVec.toNat_ofNat] at hw
  omega

theorem selectWord_eq_rstd_iff (s : State) : selectWord s = 0x10#8 ↔ s.phase = .rstd := by
  cases h : s.phase with
  | service | rstd | rstb => simp [selectWord, h]
  | cmp => simp [selectWord_ne_of_cmp h]

theorem selectWord_eq_rstb_iff (s : State) : selectWord s = 0x11#8 ↔ s.phase = .rstb := by
  cases h : s.phase with
  | service | rstd | rstb => simp [selectWord, h]
  | cmp => simp [selectWord_ne_of_cmp h]

/-- Settles O25: each reset is the `PSET` of its port, whose lines `out_portSetAll` gives, and the move of the phase. -/
theorem perCyclePortReset : Obligations.PerCyclePortReset := by
  refine ⟨rfl, rfl, fun s => ⟨selectWord_eq_rstd_iff s, selectWord_eq_rstb_iff s⟩, fun s h => ?_⟩
  have hwf := wf_of_standardEngine h
  obtain ⟨-, hd, hb, ho⟩ := (standardEngine_iff s.cfg).1 h
  refine ⟨firstReset_of_standardEngine h, exec_rstd_of_standardEngine h, exec_rstb_of_standardEngine h, ?_, ?_,
    fun c => ?_, fun c => ?_⟩
  · simp only [exec_rstd, exec_psetOf, andThen, phaseAfterRstd, ho]
  · simp only [exec_rstb, exec_psetOf, andThen, phaseAfterRstb, ho]
  · simpa only [portMap_pd_iff] using
      out_of_portSetAll_ports (p := .pd) (t := { s with pd := 0xFF#8, phase := .rstb }) hwf hd.symm rfl c
  · simpa only [portMap_pb_iff] using
      out_of_portSetAll_ports (p := .pb) (t := { s with pb := 0xFF#8, phase := .cmp }) hwf rfl hb.symm c

/-! ## One step of the engine -/

/-- `SVC` when no duty write has arrived by itself is the service procedure and the move to the first reset (R78). -/
theorem svc_of_no_arrival {s : State} (h : arrivedWrites s.writes = []) :
    exec .svc s = andThen (serviceAfterPoll (poll s)) fun t => .next { t with phase := firstReset s.cfg } := by
  rw [exec_svc]
  refine andThen_congr fun t ht => ?_
  obtain ⟨hcfg, -, -, -, -, -, -, -, hw, -⟩ := serviceOfPoll_frame ht
  simp only [landWrites_of_none (hw ▸ h), hcfg]

theorem landWrites_poll (s : State) : landWrites (poll s).2 =
    storeWords { (poll s).2 with writes := laterWrites s.writes } (arrivedWrites s.writes) := by
  rw [landWrites, poll_writes]

/-- The compare clears the bit of its channel exactly on equality, and leaves both ports otherwise (R94). -/
theorem compareChannel_ports (s : State) (c : Channel) :
    if dutyRead s c = zext16 s.x then
      (compareChannel s c).pd = (portClrBit s (portMap c).1 (portMap c).2).pd ∧
        (compareChannel s c).pb = (portClrBit s (portMap c).1 (portMap c).2).pb
    else (compareChannel s c).pd = s.pd ∧ (compareChannel s c).pb = s.pb := by
  by_cases h : dutyRead s c = zext16 s.x <;> simp [compareChannel, dutyMatches, h]

/-- The position after the compare of a channel: the next of its pass, the next pass, the next cycle, or the service
window (R78, R82 to R84). -/
theorem advance_position (s : State) (c : Channel) :
    if c.num < 13 then
      (advance s c).i.num = c.num + 1 ∧ (advance s c).x = s.x ∧ (advance s c).z = s.z ∧ (advance s c).phase = s.phase
    else (advance s c).i = .c2 ∧
      if s.x.toNat < 255 then (advance s c).x = s.x + 1#8 ∧ (advance s c).z = s.z ∧ (advance s c).phase = s.phase
      else (advance s c).x = 0#8 ∧
        if s.z < s.cfg.K - 1 then (advance s c).z = s.z + 1 ∧ (advance s c).phase = firstReset s.cfg
        else (advance s c).z = 0 ∧ (advance s c).phase = .service := by
  rcases advance_cases s c with ⟨hc, d, hd, ha⟩ | ⟨rfl, hx, ha⟩ | ⟨rfl, hx, hz, ha⟩ | ⟨rfl, hx, hz, ha⟩ <;> rw [ha]
  · simp [hc, hd]
  · simp [Channel.num, hx]
  · simp [Channel.num, hx, hz]
  · simp [Channel.num, hx, Nat.not_lt.2 hz]

/-- Settles O10: on the engine's turn the step is `settle true` of the operation of its phase, whose effect is that of the
lemma for the operation. -/
theorem engineStepFollowsThePseudocode : Obligations.EngineStepFollowsThePseudocode := by
  intro s h he
  have hfirst := firstReset_of_standardEngine h
  have hstep := step_engine he
  refine ⟨fun hp hw => ?_, fun hp hno => ?_, fun hp => ?_, fun hp => ?_, fun hp => ?_⟩ <;> rw [hp] at hstep <;>
    rw [hstep]
  · rw [svc_of_no_arrival hw, hfirst]
  · rw [svc_of_noUpdate hno, exec_poll, hfirst, andThen, landWrites_poll]
  · rw [exec_rstd_of_standardEngine h]
  · rw [exec_rstb_of_standardEngine h]
  · have hports := compareChannel_ports s s.i
    have hpos := advance_position s s.i
    rw [hp, hfirst] at hpos
    refine ⟨{ advance (compareChannel s s.i) s.i with writes := tickWrites s.writes }, ?_, ?_⟩
    · simp [exec_cmpOf, settle, andThen]
    · rw [advance_compareChannel]
      exact ⟨hports, compareChannel_duty s s.i, compareChannel_lb s s.i, compareChannel_wp s s.i,
        compareChannel_sweeps s s.i, compareChannel_cfg s s.i, hpos⟩

end Sys2Proof.Machine
end

section
/-! PROOFS. The comparator and the port mapper of 42_comparator_toggle.md: the table of the mapper (R93), the compare of a
channel (R94), and the duty values that match no level (R96). -/

namespace Sys2Proof.Machine

/-! ## The port mapper -/

/-- The channels are numbered by exactly the indices 2 to 13 (R9). -/
theorem exists_channel_num_iff (n : Nat) : (∃ c : Channel, c.num = n) ↔ 2 ≤ n ∧ n < 14 := by
  constructor
  · rintro ⟨c, rfl⟩
    exact ⟨c.num_ge, c.num_lt⟩
  · rintro ⟨h2, h14⟩
    obtain ⟨c, -, hc⟩ := channel_of_updateIndex (k := n - 2) (by omega)
    exact ⟨c, by omega⟩

/-- The rows of the table with port `PD` (R93). -/
theorem portMap_of_lt {c : Channel} (h : c.num < 8) : portMap c = (.pd, ⟨c.num, h⟩) := by
  revert h; cases c <;> decide

/-- The rows of the table with port `PB` (R93). -/
theorem portMap_of_ge {c : Channel} (h : 8 ≤ c.num) :
    portMap c = (.pb, ⟨c.num - 8, by have := c.num_lt; omega⟩) := by
  revert h; cases c <;> decide

theorem portMap_eq_pd_iff (c : Channel) (b : BitPos) : portMap c = (.pd, b) ↔ c.num = b.val := by
  rcases Nat.lt_or_ge c.num 8 with h | h
  · simp [portMap_of_lt h, Fin.ext_iff]
  · simp only [portMap_of_ge h, Prod.mk.injEq, reduceCtorEq, false_and, false_iff]; omega

theorem portMap_eq_pb_iff (c : Channel) (b : BitPos) : portMap c = (.pb, b) ↔ c.num = b.val + 8 := by
  rcases Nat.lt_or_ge c.num 8 with h | h
  · simp only [portMap_of_lt h, Prod.mk.injEq, reduceCtorEq, false_and, false_iff]; omega
  · simp only [portMap_of_ge h, Prod.mk.injEq, Fin.ext_iff, true_and]; omega

/-- The image of the mapper: every bit of the ports but the four of R93. -/
theorem exists_portMap_eq_iff (p : PortSel) (b : BitPos) : (∃ c, portMap c = (p, b)) ↔
    ¬((p, b) = (.pd, 0) ∨ (p, b) = (.pd, 1) ∨ (p, b) = (.pb, 6) ∨ (p, b) = (.pb, 7)) := by
  cases p with
  | pd => simp only [portMap_eq_pd_iff, exists_channel_num_iff]; revert b; decide
  | pb => simp only [portMap_eq_pb_iff, exists_channel_num_iff]; revert b; decide

/-- The output line is the register bit of the table's output column (R93). -/
theorem out_eq_port_bit (s : State) (c : Channel) :
    s.out c = if c.num < 8 then s.pd.getLsbD c.num else s.pb.getLsbD (c.num - 8) := by
  unfold State.out
  split
  · next h => rw [portMap_of_lt h, port_pd]
  · next h => rw [portMap_of_ge (Nat.le_of_not_lt h), port_pb]

/-- Settles O29: the rows of the table, the injectivity, the image and the output column are each a lemma on `portMap`. -/
theorem portMapperTable : Obligations.PortMapperTable :=
  ⟨fun _ => ⟨fun h => by rw [portMap_of_lt h]; exact ⟨rfl, rfl⟩, fun h => by rw [portMap_of_ge h]; exact ⟨rfl, rfl⟩⟩,
    fun _ _ => portMap_inj, exists_portMap_eq_iff, out_eq_port_bit⟩

/-! ## The compare of a channel -/

theorem encode_cmpOf (c : Channel) : encode (cmpOf c) = .m (0x20#8 + BitVec.ofNat 8 c.num) := by
  cases c <;> rfl

@[simp] theorem port_advance (s : State) (c : Channel) (p : PortSel) : (advance s c).port p = s.port p := by
  cases p with
  | pd => exact advance_pd s c
  | pb => exact advance_pb s c

/-- A compare clears the bit of its channel exactly on equality, and leaves every other bit of both ports (R94). -/
theorem bit_compareChannel (s : State) (c : Channel) (p : PortSel) (b : BitPos) :
    ((compareChannel s c).port p).getLsbD b.val =
      ((s.port p).getLsbD b.val && !decide (dutyRead s c = zext16 s.x ∧ portMap c = (p, b))) := by
  by_cases h : dutyRead s c = zext16 s.x
  · have hm : dutyMatches s c = true := beq_iff_eq.2 h
    simp only [compareChannel, hm, if_true, bit_portClrBit, h, true_and, Prod.ext_iff]
  · simp [compareChannel, dutyMatches, h]

theorem compareChannel_frame (s : State) (c : Channel) :
    compareChannel s c = { s with pd := (compareChannel s c).pd, pb := (compareChannel s c).pb } := by
  unfold compareChannel
  split
  · exact setPort_frame s _ _
  · rfl

/-- `CMP c` writes the ports and the position, and nothing else (R94). -/
theorem compare_frame (s : State) (c : Channel) : advance (compareChannel s c) c =
    { s with pd := (compareChannel s c).pd, pb := (compareChannel s c).pb, phase := (advance s c).phase,
             z := (advance s c).z, x := (advance s c).x, i := (advance s c).i } := by
  rw [advance_compareChannel, compareChannel_frame]

/-- Settles O30: the counter updates move no port, so the bits are those that the compare leaves. -/
theorem compareClearsOnEquality : Obligations.CompareClearsOnEquality := by
  intro s c
  refine ⟨encode_cmpOf c, advance (compareChannel s c) c, exec_cmpOf c s, fun p b => ?_, ?_⟩
  · rw [port_advance, bit_compareChannel]
  · rw [compare_frame]

/-! ## Duty values of 256 and more -/

/-- The 16-bit comparison byte by byte: the zero-extended level has upper byte 0 and the level as lower byte (R96). -/
theorem dutyMatches_iff_bytes (s : State) (c : Channel) : dutyMatches s c = true ↔
    (dutyRead s c).extractLsb' 8 8 = 0#8 ∧ (dutyRead s c).extractLsb' 0 8 = s.x := by
  have hd := (dutyRead s c).isLt
  have hx := s.x.isLt
  rw [dutyMatches_iff, ← BitVec.toNat_inj, ← BitVec.toNat_inj]
  simp only [BitVec.extractLsb'_toNat, BitVec.toNat_ofNat, Nat.shiftRight_eq_div_pow]
  omega

/-- A level is below 256, so a duty value of 256 or more is not equal to it. -/
theorem dutyMatches_of_large {s : State} {c : Channel} (h : 256 ≤ (dutyRead s c).toNat) : dutyMatches s c = false := by
  have hx := s.x.isLt
  rw [← Bool.not_eq_true, dutyMatches_iff]
  omega

theorem out_compare_of_large {s : State} {c : Channel} (h : 256 ≤ (dutyRead s c).toNat) (d : Channel) :
    (compareChannel s d).out c = s.out c := by
  rw [out_compareChannel]
  by_cases hdc : d = c
  · simp [hdc, dutyMatches_of_large h]
  · simp [hdc]

/-- Settles O32: the level has no part in how large the duty value is, and a completed compare is `exec_cmpOf`. -/
theorem largeDutyNeverMatches : Obligations.LargeDutyNeverMatches := by
  refine ⟨dutyMatches_iff_bytes, fun s c x h => dutyMatches_of_large (s := { s with x := x }) h, fun s t c d h ht => ?_⟩
  rw [exec_cmpOf] at ht
  cases ht
  rw [out_advance, out_compare_of_large h]

end Sys2Proof.Machine
end

section
/-! PROOFS. The round trips of 30_encoding.md between an operation and its word, and the cut of a line into fields. -/

namespace Sys2Proof.Machine

/-! ## Encode, then decode -/

theorem decode_encode_cmpOf (c : Channel) : decode (encode (cmpOf c)) = .ok (cmpOf c) := by cases c <;> rfl

/-- Settles O1: family by family, the fields that the encoder writes are those that the decoder reads. -/
theorem decodeEncodeRoundTrip : Obligations.DecodeEncodeRoundTrip := by
  intro i
  cases i using Instr.familyCases with
  | svc | poll | update | lbclr | rstd | rstb => rfl
  | cmp c => exact decode_encode_cmpOf c
  | dwr idx val => exact decode_dutyWord idx val
  | pset p => exact decode_encode_psetOf p
  | pclr c => exact decode_encode_pclrOf c
  | line bytes => rfl

/-! ## Decode, then encode -/

/-- A format M word that decodes has the group and argument of its row, and so is the row's word. -/
theorem encode_of_decodeM {w : BitVec 8} {i : Instr} (h : decode (.m w) = .ok i) :
    encode i = .m w ∧ i.wellFormed = true := by
  have hw := toNat_fieldsM w
  simp only [decode, decodeM] at h
  split at h
  case h_19 => cases h
  all_goals
    cases h
    exact ⟨congrArg Frame.m (BitVec.eq_of_toNat_eq (by rw [hw]; simp [*])), rfl⟩

/-- A format P word that decodes has the three fields of its row, and so is the row's word. -/
theorem encode_of_decodeP {w : BitVec 5} {i : Instr} (h : decode (.p w) = .ok i) :
    encode i = .p w ∧ i.wellFormed = true := by
  have hw := toNat_fieldsP w
  simp only [decode, decodeP] at h
  split at h
  case h_15 => cases h
  all_goals
    cases h
    exact ⟨congrArg Frame.p (BitVec.eq_of_toNat_eq (by rw [hw]; simp [*])), rfl⟩

theorem wellFormed_line_iff (bytes : List Byte) :
    (Instr.line bytes).wellFormed = true ↔ 1 ≤ bytes.length ∧ bytes.length ≤ 49 := by
  simp [Instr.wellFormed, lineLengthOk]

/-- Settles O2: interface by interface, the fields that the decoder reads are those that the encoder writes. -/
theorem encodeDecodeRoundTrip : Obligations.EncodeDecodeRoundTrip := by
  intro f i h
  cases f with
  | t bytes =>
    obtain rfl := Except.ok.inj h
    exact ⟨rfl, by simp [wellFormed_line_iff]⟩
  | h w =>
    obtain rfl := Except.ok.inj h
    exact ⟨congrArg Frame.h (dutyWord_of_fields w), by simp [Instr.wellFormed]⟩
  | m w =>
    obtain ⟨henc, hwf⟩ := encode_of_decodeM h
    exact ⟨henc, by simp [hwf]⟩
  | p w =>
    obtain ⟨henc, hwf⟩ := encode_of_decodeP h
    exact ⟨henc, by simp [hwf]⟩

/-- Settles O7: each word written out in bits is a row of its table. -/
theorem knownWordsDecode : Obligations.KnownWordsDecode :=
  ⟨rfl, rfl, rfl, rfl, rfl, rfl, rfl, rfl, rfl⟩

/-! ## Fields -/

/-- The model's cut at commas is the library's. -/
theorem splitFields_eq_splitOn (line : List Byte) : splitFields line = line.splitOn 0x2C#8 := by
  induction line with
  | nil => rfl
  | cons b r ih =>
    rw [splitFields, ih, List.splitOn_cons_eq_if_modifyHead, isComma]
    cases h : r.splitOn 0x2C#8 with
    | nil => exact absurd h (List.splitOn_ne_nil _ _)
    | cons f fs => rfl

theorem length_splitFields (line : List Byte) : (splitFields line).length = line.count 0x2C#8 + 1 := by
  simp only [splitFields_eq_splitOn]
  induction line with
  | nil => rfl
  | cons b r ih =>
    rw [List.splitOn_cons_eq_if_modifyHead, List.count_cons]
    split <;> simp [ih]

/-- Settles O14: the cut is the library's `splitOn`, which `intercalate` undoes and is undone by. -/
theorem fieldsCutAtCommas : Obligations.FieldsCutAtCommas := by
  refine fun line => ⟨?_, length_splitFields line, fun fs hne hcomma hjoin => ?_⟩
  · rw [splitFields_eq_splitOn, List.intercalate_splitOn]
  · rw [splitFields_eq_splitOn, ← hjoin, List.splitOn_intercalate _ hcomma hne]

end Sys2Proof.Machine
end

section
/-! PROOFS. The rights of host and engine (60_exceptions.md section 4), the invariant of the machine and the line
space at rest: what each operation leaves of the position, the ports, the presented words and the line buffer. -/

namespace Sys2Proof.Machine

/-! ## The host's operations -/

/-- `t` has the ports, the position and the presented words of `s`: what no operation of the host writes. -/
structure State.HostFrame (t s : State) : Prop where
  pd : t.pd = s.pd
  pb : t.pb = s.pb
  position : SamePosition t s
  presented : t.presented = s.presented

theorem poll_hostFrame {s t : State} (h : exec .poll s = .next t) : t.HostFrame s := by
  obtain rfl := Host.Outcome.next.inj h
  constructor <;> simp [SamePosition]

theorem update_hostFrame {s t : State} (h : exec .update s = .next t) : t.HostFrame s := by
  rw [update_frame h]
  exact ⟨rfl, rfl, ⟨rfl, rfl, rfl, rfl⟩, rfl⟩

theorem lbclr_hostFrame {s t : State} (h : exec .lbclr s = .next t) : t.HostFrame s := by
  obtain rfl := Host.Outcome.next.inj h
  exact ⟨rfl, rfl, ⟨rfl, rfl, rfl, rfl⟩, rfl⟩

theorem dutyStore_hostFrame (s : State) (idx : DutyIndex) (v : DutyValue) : (dutyStore s idx v).HostFrame s := by
  rw [dutyStore_frame]
  exact ⟨rfl, rfl, ⟨rfl, rfl, rfl, rfl⟩, rfl⟩

theorem dwr_hostFrame {s t : State} {idx : DutyIndex} {v : DutyValue} (h : exec (.dwr idx v) s = .next t) :
    t.HostFrame s := by
  obtain rfl := Host.Outcome.next.inj h
  exact dutyStore_hostFrame s idx v

theorem line_hostFrame {s t : State} {bytes : List Byte} (h : exec (.line bytes) s = .next t) : t.HostFrame s := by
  obtain ⟨-, hpd, hpb, hphase, hz, hx, hi, -, -, hpres, -⟩ := service_frame (bytes := bytes) h
  exact ⟨hpd, hpb, ⟨hphase, hz, hx, hi⟩, hpres⟩

/-! ## The engine's operations -/

/-- `t` has the duty array, the front-end and the queues of `s`: what no port reset and no compare writes. -/
structure State.EngineFrame (t s : State) : Prop where
  duty : t.duty = s.duty
  lb : t.lb = s.lb
  wp : t.wp = s.wp
  sweeps : t.sweeps = s.sweeps
  writes : t.writes = s.writes
  presented : t.presented = s.presented

theorem rstd_engineFrame {s t : State} (h : exec .rstd s = .next t) : t.EngineFrame s := by
  obtain rfl := Host.Outcome.next.inj h
  constructor <;> simp

theorem rstb_engineFrame {s t : State} (h : exec .rstb s = .next t) : t.EngineFrame s := by
  obtain rfl := Host.Outcome.next.inj h
  constructor <;> simp

theorem cmpOf_engineFrame {s t : State} {c : Channel} (h : exec (cmpOf c) s = .next t) : t.EngineFrame s := by
  rw [exec_cmpOf] at h
  obtain rfl := Host.Outcome.next.inj h
  constructor <;> simp

/-- A completed `SVC` left its service procedure, performed the arrived writes, and moved on to the first reset. -/
theorem svc_next {s t : State} (h : exec .svc s = .next t) :
    ∃ u, serviceAfterPoll (poll s) = .next u ∧ t = { landWrites u with phase := firstReset u.cfg } := by
  rw [exec_svc] at h
  obtain ⟨u, hu, ht⟩ := andThen_eq_next_iff.1 h
  exact ⟨u, hu, (Host.Outcome.next.inj ht).symm⟩

/-- `SVC` writes no port and no counter. -/
theorem svc_frame {s t : State} (h : exec .svc s = .next t) :
    t.pd = s.pd ∧ t.pb = s.pb ∧ t.z = s.z ∧ t.x = s.x ∧ t.i = s.i ∧ t.presented = s.presented := by
  obtain ⟨u, hu, rfl⟩ := svc_next h
  obtain ⟨-, hpd, hpb, -, hz, hx, hi, -, -, hpres, -⟩ := serviceOfPoll_frame hu
  simp [hpd, hpb, hz, hx, hi, hpres]

theorem psetOf_frame {s t : State} {p : PortSel} (h : exec (psetOf p) s = .next t) :
    t = { s with pd := t.pd, pb := t.pb } := by
  rw [exec_psetOf] at h
  obtain rfl := Host.Outcome.next.inj h
  exact setPort_frame s p _

theorem pclrOf_frame {s t : State} {c : Channel} (h : exec (pclrOf c) s = .next t) :
    t = { s with pd := t.pd, pb := t.pb } := by
  rw [exec_pclrOf] at h
  obtain rfl := Host.Outcome.next.inj h
  exact setPort_frame s _ _

/-- Settles O38: the frames of the operations, agent by agent. -/
theorem rightsOfHostAndEngine : Obligations.RightsOfHostAndEngine := by
  refine fun s t => ⟨fun h => ?_, fun h => ?_, fun h => ?_, fun h => ?_⟩
  · have hf : t.HostFrame s := by
      rcases h with h | h | h | ⟨idx, val, h⟩ | ⟨bytes, h⟩
      exacts [poll_hostFrame h, update_hostFrame h, lbclr_hostFrame h, dwr_hostFrame h, line_hostFrame h]
    exact ⟨hf.pd, hf.pb, hf.position⟩
  · have hf : t.EngineFrame s := by
      rcases h with h | h | ⟨c, h⟩
      exacts [rstd_engineFrame h, rstb_engineFrame h, cmpOf_engineFrame h]
    exact ⟨hf.duty, hf.lb, hf.wp, hf.sweeps, hf.writes⟩
  · obtain ⟨hpd, hpb, hz, hx, hi, -⟩ := svc_frame h
    exact ⟨hpd, hpb, hz, hx, hi⟩
  · rcases h with ⟨p, h⟩ | ⟨c, h⟩
    exacts [psetOf_frame h, pclrOf_frame h]

/-! ## The presented words and the position -/

theorem issuePoint_cmpOf (c : Channel) : issuePoint (cmpOf c) = some (.cmp, c) := by cases c <;> rfl

/-- An operation that is no micro-operation of the engine leaves the position (R86). -/
theorem exec_position {i : Instr} {s t : State} (hi : issuePoint i = none) (h : exec i s = .next t) :
    SamePosition t s := by
  cases i using Instr.familyCases with
  | svc | rstd | rstb => cases hi
  | cmp c => rw [issuePoint_cmpOf] at hi; cases hi
  | poll => exact (poll_hostFrame h).position
  | update => exact (update_hostFrame h).position
  | lbclr => exact (lbclr_hostFrame h).position
  | dwr idx val => exact (dwr_hostFrame h).position
  | line bytes => exact (line_hostFrame h).position
  | pset p => rw [psetOf_frame h]; exact ⟨rfl, rfl, rfl, rfl⟩
  | pclr c => rw [pclrOf_frame h]; exact ⟨rfl, rfl, rfl, rfl⟩

/-- No operation presents a word or takes one off. -/
theorem exec_presented {i : Instr} {s t : State} (h : exec i s = .next t) : t.presented = s.presented := by
  cases i using Instr.familyCases with
  | svc =>
    obtain ⟨-, -, -, -, -, hpres⟩ := svc_frame h
    exact hpres
  | rstd => exact (rstd_engineFrame h).presented
  | rstb => exact (rstb_engineFrame h).presented
  | cmp c => exact (cmpOf_engineFrame h).presented
  | poll => exact (poll_hostFrame h).presented
  | update => exact (update_hostFrame h).presented
  | lbclr => exact (lbclr_hostFrame h).presented
  | dwr idx val => exact (dwr_hostFrame h).presented
  | line bytes => exact (line_hostFrame h).presented
  | pset p => rw [psetOf_frame h]
  | pclr c => rw [pclrOf_frame h]

theorem issue_presented (s : State) : (issue s).start.presented = s.presented.tail := by
  rcases turn_cases s with ⟨f, r, hp⟩ | ⟨hp, w, t, hl⟩ | ⟨hp, hl⟩
  · simp [issue, hp]
  · obtain ⟨-, r, -, rfl⟩ := landingWrite_some hl
    simp [issue, hp, hl]
  · simp [issue, engineIssue, hp, hl]

/-- A step takes the first presented word, if there is one, and presents none. -/
theorem step_takes_presented {s t : State} (h : step s = .next t) : t.presented = s.presented.tail := by
  obtain ⟨i, u, -, hx, rfl⟩ := step_next h
  rw [← issue_presented s, ← exec_presented hx]
  split <;> rfl

/-- With no engine word presented, a step that is not the engine's leaves the position. -/
theorem step_position {s t : State} (hn : ∀ f ∈ s.presented, isEngineFrame f = false) (h : step s = .next t) :
    s.engineTurn ∨ SamePosition t s := by
  rcases turn_cases s with ⟨f, r, hp⟩ | ⟨hp, w, u, hl⟩ | he
  · have hf := hn f (by simp [hp])
    cases hd : decode f with
    | error e => rw [step_presented_refused hp hd] at h; cases h
    | ok i =>
      rw [step_presented hp hd] at h
      have hi : issuePoint i = none := by simpa [isEngineFrame, hd] using hf
      exact .inr (exec_position (s := { s with presented := r }) hi h)
  · obtain ⟨-, r, -, rfl⟩ := landingWrite_some hl
    rw [step_landing hp hl] at h
    obtain rfl := Host.Outcome.next.inj h
    exact .inr (dutyStore_hostFrame _ _ _).position
  · exact .inl he

theorem positionLegal_congr {s t : State} (hcfg : t.cfg = s.cfg) (hp : SamePosition t s) :
    t.positionLegal = s.positionLegal := by
  obtain ⟨hphase, hz, hx, hi⟩ := hp
  simp only [State.positionLegal, hcfg, hphase, hz, hx, hi]

/-! ## The line buffer -/

/-- All that an operation does to the line buffer: it leaves it, clears it, or stores a sweep in it. -/
theorem exec_buffer {i : Instr} {s t : State} (h : exec i s = .next t) :
    t.lb = s.lb ∨ t.lb = [] ∨ ∃ u bytes, u.lb = s.lb ∧ t.lb = (pollSweep u bytes).2.lb := by
  cases i using Instr.familyCases with
  | svc =>
    obtain ⟨u, hu, rfl⟩ := svc_next h
    rcases serviceOfPoll_line hu with ⟨hlb, -⟩ | ⟨hlb, -⟩ <;> simp [hlb]
  | poll =>
    obtain rfl := Host.Outcome.next.inj h
    exact .inr (.inr ⟨(takeSweep s).2, (takeSweep s).1, takeSweep_lb s, rfl⟩)
  | update => exact .inl (by rw [update_frame h])
  | lbclr => obtain rfl := Host.Outcome.next.inj h; exact .inr (.inl rfl)
  | rstd => exact .inl (rstd_engineFrame h).lb
  | rstb => exact .inl (rstb_engineFrame h).lb
  | cmp c => exact .inl (cmpOf_engineFrame h).lb
  | dwr idx val => obtain rfl := Host.Outcome.next.inj h; exact .inl (dutyStore_lb s idx val)
  | pset p => exact .inl (by rw [psetOf_frame h])
  | pclr c => exact .inl (by rw [pclrOf_frame h])
  | line bytes =>
    rcases service_line (bytes := bytes) h with ⟨hlb, -⟩ | ⟨hlb, -⟩ <;> simp [hlb]

/-- What every sweep stored in the buffer keeps, and the clear buffer has, every step keeps. -/
theorem step_keeps_buffer {p : Memory → Prop} (hnil : p []) (hpoll : ∀ u bytes, p u.lb → p (pollSweep u bytes).2.lb)
    {s t : State} (h : step s = .next t) (hs : p s.lb) : p t.lb := by
  obtain ⟨i, u, -, hx, rfl⟩ := step_next h
  have hu : p u.lb := by
    have hstart : (issue s).start.lb = s.lb := by rw [issue_start]
    rw [← hstart] at hs
    rcases exec_buffer hx with hlb | hlb | ⟨v, bytes, hv, hlb⟩ <;> rw [hlb]
    exacts [hs, hnil, hpoll v bytes (hv ▸ hs)]
  split <;> exact hu

/-! ## The invariant -/

/-- Settles O46: the position moves on by `step_follows` or stays, the buffer keeps what every sweep keeps, the
presented words are those that were left, and the rest is constant. -/
theorem stepKeepsTheInvariant : Obligations.StepKeepsTheInvariant := by
  intro s t hs h
  obtain ⟨hcfg, h0, h1⟩ := step_keeps h
  refine ⟨hcfg ▸ hs.cfgLegal, ?_, ?_, ?_, h0.trans hs.reserved0, h1.trans hs.reserved1, fun f hf => ?_⟩
  · rcases step_position hs.noEngineWord h with he | hp
    · exact (step_follows hs.position he h).1
    · exact (positionLegal_congr hcfg hp).trans hs.position
  · exact step_keeps_buffer (p := fun m => m.wf = true) nil_wf (fun _ bytes hu => pollSweep_wf hu bytes) h
      hs.lineCanonical
  · exact step_keeps_buffer (p := fun m => m.read 49 = 0x00#8) rfl (fun _ bytes hu => pollSweep_lineEnds hu bytes) h
      hs.lineEnds
  · rw [step_takes_presented h] at hf
    exact hs.noEngineWord f (List.mem_of_mem_tail hf)

theorem powerUp_inv {cfg : Config} (h : cfg.wf = true) (d b : Byte) (sw : List (List Byte))
    (ws : List (Nat × BitVec 20)) : (State.powerUp cfg d b sw ws).Inv where
  cfgLegal := h
  position := by
    have hK := one_le_K_of_wf h
    rw [positionLegal_iff]
    exact ⟨hK, fun _ => rfl, fun _ => ⟨rfl, rfl⟩⟩
  lineCanonical := nil_wf
  lineEnds := rfl
  reserved0 := powerUp_duty cfg d b sw ws 0 (by decide)
  reserved1 := powerUp_duty cfg d b sw ws 1 (by decide)
  noEngineWord := by simp [State.powerUp]

/-- Settles O45: the reset state is a power-up of this hardware's configuration, which is legal. -/
theorem powerUpMeetsTheInvariant : Obligations.PowerUpMeetsTheInvariant :=
  ⟨powerUp_inv (by decide) _ _ _ _, fun _ d b sw ws h => powerUp_inv h d b sw ws⟩

/-! ## The line space at rest -/

/-- Settles O47: of the steps of the hardware only the service window touches the front-end, and it clears what it
stored. -/
theorem stepLeavesFrontEndAtRest : Obligations.StepLeavesFrontEndAtRest := by
  intro s t ⟨hpres, hlb, hwp⟩ h
  refine ⟨by rw [step_takes_presented h, hpres]; rfl, ?_⟩
  rcases turn_cases s with ⟨f, r, hp⟩ | ⟨hp, w, u, hl⟩ | he
  · rw [hpres] at hp; cases hp
  · obtain ⟨-, r, -, rfl⟩ := landingWrite_some hl
    rw [step_landing hp hl] at h
    obtain rfl := Host.Outcome.next.inj h
    simp [hlb, hwp]
  · rcases step_engine_cases he h with ⟨-, u, hu, rfl⟩ | ⟨-, rfl⟩ | ⟨-, rfl⟩ | ⟨-, rfl⟩
    · rcases serviceOfPoll_line hu with ⟨h1, h2⟩ | ⟨h1, h2⟩ <;> simp [h1, h2, hlb, hwp]
    all_goals simp [hlb, hwp]

/-- A canonical line space lists exactly the positions that do not read as 0x00, each with what it reads as. -/
theorem mem_iff_read {m : Memory} (h : m.wf = true) (c : Host.Cell) :
    c ∈ m ↔ ∃ a : LinePos, c = (a.val, m.read a) ∧ m.read a ≠ 0x00#8 := by
  obtain ⟨hrise, hcells⟩ := (wf_iff m).1 h
  induction m with
  | nil => simp [Memory.read, Memory.unlisted]
  | cons d r ih =>
    obtain ⟨k, v⟩ := d
    obtain ⟨hk, hr⟩ := List.pairwise_cons.1 hrise
    obtain ⟨hk50, hv⟩ := hcells (k, v) (by simp)
    have hcells' : ∀ c ∈ r, c.1 < 50 ∧ c.2 ≠ 0x00#8 := fun c hc => hcells c (by simp [hc])
    have ih := ih ((wf_iff r).2 ⟨hr, hcells'⟩) hr hcells'
    have hread (a : LinePos) : Memory.read ((k, v) :: r) a = if k = a.val then v else Memory.read r a := rfl
    simp only [List.mem_cons, ih, hread]
    constructor
    · rintro (rfl | ⟨a, rfl, ha⟩)
      · exact ⟨⟨k, hk50⟩, by simp, by simpa using hv⟩
      · have hne : k ≠ a.val := Nat.ne_of_lt (hk _ (ih.2 ⟨a, rfl, ha⟩))
        exact ⟨a, by simp [hne], by simpa [hne] using ha⟩
    · rintro ⟨a, rfl, ha⟩
      by_cases hka : k = a.val
      · exact .inl (by simp [hka])
      · exact .inr ⟨a, by simp [hka], by simpa [hka] using ha⟩

/-- Settles O48: the two list the same cells, in the one rising order. -/
theorem equalContentsEqualLineSpace : Obligations.EqualContentsEqualLineSpace := by
  intro m n hm hn hread
  have hmem (c : Host.Cell) : c ∈ m ↔ c ∈ n := by simp only [mem_iff_read hm, mem_iff_read hn, hread]
  have hperm : m.Perm n :=
    (List.perm_ext_iff_of_nodup ((wf_iff m).1 hm).1.nodup ((wf_iff n).1 hn).1.nodup).2 hmem
  exact hperm.eq_of_pairwise (fun _ _ _ _ h1 h2 => absurd h1 (Nat.lt_asymm h2)) ((wf_iff m).1 hm).1
    ((wf_iff n).1 hn).1

end Sys2Proof.Machine
end

section
/-! PROOFS. The front-end through whole updates: `UPDATE` under every parser policy, one `SVC` and one format T line
from sweep to duty array, and the duty writes that arrive by themselves. -/

namespace Sys2Proof.Machine

/-! ## UPDATE under every policy -/

/-- The fields as they are numbered: all under `zero`, those of at least one character under `skip` (D12). -/
theorem lineFields_eq {cfg : Config} {line : List Byte} {fields : List Field}
    (h : cfg.emptyField = .zero ∧ fields = splitFields line ∨
      cfg.emptyField = .skip ∧ fields = (splitFields line).filter fun f => decide (f ≠ [])) :
    lineFields cfg line = fields := by
  unfold lineFields
  rcases h with ⟨he, rfl⟩ | ⟨he, rfl⟩ <;> rw [he]
  exact List.filter_congr fun f _ => by cases f <;> rfl

/-- One of the fields looked at is outside the defined subset, and the configuration refuses that (D14). -/
def PrefixRefused (cfg : Config) (fields : List Field) : Prop :=
  cfg.fieldPrefix = .refuse ∧ ∃ f ∈ fields, outsideSubset f = true

/-- One of the fields looked at exceeds 65535, and the configuration refuses that (D13). -/
def OverflowRefused (cfg : Config) (fields : List Field) : Prop :=
  cfg.fieldOverflow = .refuse ∧ ∃ f ∈ fields, 65535 < decOf (digitRun f)

/-- The three verdicts on a line, each with what gives it. -/
theorem lineVerdict_cases (cfg : Config) (line : List Byte) :
    (PrefixRefused cfg (writtenFields cfg line) → lineVerdict cfg line = some .fieldPrefix) ∧
    (¬PrefixRefused cfg (writtenFields cfg line) → OverflowRefused cfg (writtenFields cfg line) →
      lineVerdict cfg line = some .fieldOverflow) ∧
    (¬PrefixRefused cfg (writtenFields cfg line) → ¬OverflowRefused cfg (writtenFields cfg line) →
      lineVerdict cfg line = none) := by
  have hp : PrefixRefused cfg (writtenFields cfg line) ↔
      cfg.fieldPrefix = .refuse ∧ (writtenFields cfg line).any outsideSubset = true := by
    simp only [PrefixRefused, List.any_eq_true]
  have ho : OverflowRefused cfg (writtenFields cfg line) ↔ cfg.fieldOverflow = .refuse ∧
      ((writtenFields cfg line).any fun f => decide (Config.maxDuty < decOf (digitRun f))) = true := by
    simp only [OverflowRefused, List.any_eq_true, decide_eq_true_eq]
  rw [hp, ho, lineVerdict]
  exact ⟨fun h => if_pos h, fun h h' => (if_neg h).trans (if_pos h'), fun h h' => (if_neg h).trans (if_neg h')⟩

theorem update_of_verdict {s : State} {r : Refusal} (h : lineVerdict s.cfg s.lb.line = some r) :
    exec .update s = .refused r := by
  simp only [exec_update, parseLine, h]

/-- `t` is `s` with the values of the numbered fields in the entries from 2 on. -/
def State.Updated (t s : State) (fields : List Field) : Prop :=
  (∀ c : Channel, dutyRead t c = entryAfter s fields c) ∧
    t.duty[0] = s.duty[0] ∧ t.duty[1] = s.duty[1] ∧ t = { s with duty := t.duty }

theorem writeFields_updated (s : State) (fields : List Field) : (writeFields s 0 fields).Updated s fields := by
  obtain ⟨h0, h1⟩ := writeFields_reserved s 0 fields
  exact ⟨dutyRead_writeFields_eq_entryAfter s fields, h0, h1, writeFields_frame s 0 fields⟩

/-- A line without a verdict against it is parsed, and its numbered fields are written (R67). -/
theorem update_of_no_verdict {s : State} (h : lineVerdict s.cfg s.lb.line = none) :
    ∃ t : State, exec .update s = .next t ∧ t.Updated s (lineFields s.cfg s.lb.line) :=
  ⟨_, by simp only [exec_update, parseLine, h], writeFields_updated s _⟩

/-- Under `strict` and `saturate` every line has a meaning. -/
theorem lineVerdict_none_of_strict {cfg : Config} (hp : cfg.fieldPrefix = .strict) (ho : cfg.fieldOverflow = .saturate)
    (line : List Byte) : lineVerdict cfg line = none :=
  (lineVerdict_cases cfg line).2.2 (fun h => by rw [h.1] at hp; cases hp) (fun h => by rw [h.1] at ho; cases ho)

/-- Settles O18: `UPDATE` follows the verdict on its line, whose three cases are those of the fields looked at. -/
theorem updateUnderEveryPolicy : Obligations.UpdateUnderEveryPolicy := by
  refine ⟨fun s fields hfields => ?_, fun s => ⟨update_of_no_verdict, fun r => update_of_verdict, fun hp ho =>
    lineVerdict_none_of_strict hp ho _⟩⟩
  have hf := lineFields_eq hfields
  obtain ⟨hprefix, hoverflow, hnone⟩ := lineVerdict_cases s.cfg s.lb.line
  rw [writtenFields, hf] at hprefix hoverflow hnone
  refine ⟨fun h => update_of_verdict (hprefix h), fun h h' => update_of_verdict (hoverflow h h'), fun h h' => ?_⟩
  obtain ⟨t, ht, hu⟩ := update_of_no_verdict (hnone h h')
  exact ⟨t, ht, hf ▸ hu⟩

/-! ## One update through the service procedure -/

/-- The service procedure on an accepted update: its fields are in the duty array, the buffer is clear, and nothing
else has changed (R75). -/
theorem service_of_accepted {s : State} {bytes : List Byte} (h0 : bytes ≠ []) (hr : rejectsSweep s.cfg bytes = false)
    (hv : lineVerdict s.cfg (sweepLine bytes) = none) :
    ∃ t : State, serviceAfterPoll (pollSweep s bytes) = .next t ∧
      (∀ c : Channel, dutyRead t c = entryAfter s (lineFields s.cfg (sweepLine bytes)) c) ∧
      t = { s with duty := t.duty, lb := [], wp := 0 } := by
  rcases service_cases s bytes with ⟨hn, -⟩ | ⟨r, hv', -⟩ | ⟨-, -, hs⟩
  · rw [pollSweep_updateAvailable h0 hr] at hn; cases hn
  · rw [hv] at hv'; cases hv'
  · refine ⟨_, hs, fun c => ?_, ?_⟩
    · refine (dutyRead_writeFields_eq_entryAfter (pollSweep s bytes).2 _ c).trans ?_
      rw [entryAfter, entryAfter, dutyRead_congr (pollSweep_duty s bytes)]
    · rw [writeFields_frame, pollSweep_update h0 hr]
      rfl

/-- Settles O22: `SVC` is the service procedure on its sweep, and no word lands after it. -/
theorem svcAppliesTheUpdate : Obligations.SvcAppliesTheUpdate := by
  intro s bytes rest hs h0 hr hv hw
  obtain ⟨t, ht, hduty, hframe⟩ := service_of_accepted (s := { s with sweeps := rest }) h0 hr hv
  have hcfg : t.cfg = s.cfg := by rw [hframe]
  refine ⟨{ t with phase := firstReset s.cfg }, ?_, hduty, ?_⟩
  · rw [svc_of_no_arrival hw, poll_of_sweeps hs, ht]; rfl
  · rw [hframe]

/-- Settles O24: a line is the service procedure on its bytes, and so is `SVC` on the same bytes as its sweep. -/
theorem lineIsOneUpdate : Obligations.LineIsOneUpdate := by
  refine ⟨fun s bytes h0 hr hv => service_of_accepted h0 hr hv, fun s bytes rest hs hw => ?_⟩
  rw [svc_of_no_arrival (by rw [hw]; rfl), poll_of_sweeps hs]
  rfl

/-- Settles O13: the option drops the sweep before anything of it is stored. -/
theorem rejectedSweepDropped : Obligations.RejectedSweepDropped := by
  intro s bytes rest hs hpolicy hlen
  have hr : rejectsSweep s.cfg bytes = true := by simp [rejectsSweep, hpolicy, hlen]
  have hno : (pollSweep { s with sweeps := rest } bytes).1 = .noUpdate := (pollSweep_noUpdate _ bytes).2 (.inr hr)
  rw [exec_poll, poll_of_sweeps hs]
  exact ⟨hno, congrArg Host.Outcome.next (pollSweep_noUpdate_state hno)⟩

/-! ## Duty writes that arrive by themselves -/

/-- Settles O56: what follows the poll, by its answer. -/
theorem updateBeforeArrivedWrites : Obligations.UpdateBeforeArrivedWrites :=
  ⟨fun _ => svc_of_update, fun _ => svc_of_noUpdate⟩

/-- The words at the front of the write port that have arrived, and the rest of the port from the first that has not.
-/
theorem arrived_later_of_append {ws : List (BitVec 20)} {later : List (Nat × BitVec 20)}
    (h : ∀ p ∈ later.head?, p.1 ≠ 0) : arrivedWrites (ws.map (fun w => (0, w)) ++ later) = ws ∧
      laterWrites (ws.map (fun w => (0, w)) ++ later) = later := by
  induction ws with
  | nil =>
    match later with
    | [] => exact ⟨rfl, rfl⟩
    | (0, w) :: r => exact absurd rfl (h (0, w) rfl)
    | (n + 1, w) :: r => exact ⟨rfl, rfl⟩
  | cons w ws ih => exact ⟨congrArg (w :: ·) ih.1, ih.2⟩

/-- Performing duty words is the sequence of their `DWR`. -/
theorem storeWords_eq_duty_writes (s : State) (ws : List (BitVec 20)) : .next (storeWords s ws) =
    ws.foldl (fun o w => andThen o (exec (.dwr (w.extractLsb' 16 4) (w.extractLsb' 0 16)))) (.next s) := by
  induction ws generalizing s with
  | nil => rfl
  | cons w ws ih => exact ih _

/-- Settles O23: without an update `SVC` is the arrived writes, which are the `DWR` of the words at the front of the
port. -/
theorem svcPerformsArrivedWrites : Obligations.SvcPerformsArrivedWrites := by
  intro s ws later hno hwrites hlater
  obtain ⟨harrived, hrest⟩ := arrived_later_of_append (ws := ws) hlater
  rw [svc_of_noUpdate hno, exec_poll, ← storeWords_eq_duty_writes, andThen, landWrites_poll, hwrites, harrived, hrest]
  rfl

end Sys2Proof.Machine
end

section
/-! PROOFS. One step: the operation it runs (41_cycle_controller.md section 1), the word of a table row once it is
placed (30_encoding.md section 6), and what can end a step (60_exceptions.md section 1). -/

namespace Sys2Proof.Machine

/-! ## The operation of a step -/

theorem landingWrite_of_arrived {s : State} {w : BitVec 20} {r : List (Nat × BitVec 20)}
    (hwindow : s.cfg.hostWriteWindow = .anyStep) (hw : s.writes = (0, w) :: r) :
    landingWrite s = some (w, { s with writes := r }) := by
  simp only [landingWrite, hwindow, hw]

/-- On the engine's turn the step is the operation that the selected word decodes to. -/
theorem step_selected {s : State} {i : Instr} (he : s.engineTurn) (hd : decode (.m (selectWord s)) = .ok i) :
    step s = settle true (exec i s) := by
  rw [decode_selectWord] at hd
  rw [step_engine he, Except.ok.inj hd]

/-- Settles O8: the three turns, each with the lemma on its step. -/
theorem stepRunsDecodedOperation : Obligations.StepRunsDecodedOperation := by
  refine ⟨fun s f r i => step_presented, fun s w r hpres hwindow hw => ?_, fun s i he hd => ?_⟩
  · exact step_landing hpres (landingWrite_of_arrived hwindow hw)
  · exact (step_selected he hd).trans (by cases exec i s <;> rfl)

/-! ## The window of the host's duty writes -/

/-- Settles O41: outside the window the step is the engine's, which writes no duty entry; under `any_step` the step is
the duty store of the arrived word. -/
theorem hostWriteWindow : Obligations.HostWriteWindow := by
  refine ⟨fun s t hpres hwindow hphase h => ?_, fun s w r hpres hwindow hw => ?_⟩
  · obtain ⟨u, hu, hr⟩ := step_renders ⟨hpres, .inl hwindow⟩ hphase
    rw [h] at hu
    obtain rfl := Host.Outcome.next.inj hu
    exact hr.duty
  · refine ⟨_, step_landing hpres (landingWrite_of_arrived hwindow hw), fun c => ?_, ?_⟩
    · rw [dutyRead_dutyStore]; rfl
    · rw [dutyStore_frame]

/-! ## Placing a word -/

/-- The word that the sequencer selects where an operation is issued is that operation. -/
theorem decode_selectWord_of_issuePoint {i : Instr} {s : State} (h : issuePoint i = some (s.phase, s.i)) :
    decode (.m (selectWord s)) = .ok i := by
  rw [decode_selectWord]
  cases i using Instr.familyCases with
  | svc | rstd | rstb =>
    obtain ⟨hphase, -⟩ := Prod.mk.inj (Option.some.inj h)
    simp only [← hphase]
  | cmp c =>
    obtain ⟨hphase, hi⟩ := Prod.mk.inj (Option.some.inj ((issuePoint_cmpOf c).symm.trans h))
    simp only [← hphase, ← hi]
  | poll | update | lbclr | dwr | line => cases h
  | pset p => cases p <;> cases h
  | pclr c => cases c <;> cases h

theorem laterWrites_head (l r : List (Nat × BitVec 20)) (w : BitVec 20) : laterWrites l ≠ (0, w) :: r := by
  induction l with
  | nil => simp [laterWrites]
  | cons a l ih =>
    obtain ⟨n, v⟩ := a
    cases n with
    | zero => exact ih
    | succ n => simp [laterWrites]

theorem decodeTableWord_some {nbits w : Nat} {i : Instr} (h : decodeTableWord nbits w = some i) :
    ∃ f, tableFrame nbits w = some f ∧ decode f = .ok i := by
  unfold decodeTableWord at h
  split at h
  · cases h
  · next f hf =>
    split at h
    · next j hj => exact ⟨f, hf, hj.trans (congrArg Except.ok (Option.some.inj h))⟩
    · cases h

/-- Settles O9: a word that is not the engine's is presented, and a word that is stands at its issue point with nothing
before it. -/
theorem placedWordRunsNext : Obligations.PlacedWordRunsNext := by
  intro s nbits w i h
  obtain ⟨f, hf, hd⟩ := decodeTableWord_some h
  simp only [State.withFetchWord, placeWord, hf, placeFrame, hd]
  cases hi : issuePoint i with
  | none =>
    refine ⟨false, s, ?_, rfl, rfl, rfl, rfl, rfl, rfl, rfl, rfl, rfl⟩
    rw [settle_false]
    exact step_presented rfl hd
  | some q =>
    obtain ⟨ph, c⟩ := q
    refine ⟨true, _, step_selected ⟨rfl, ?_⟩ (decode_selectWord_of_issuePoint hi), rfl, rfl, rfl, rfl, rfl, rfl, rfl,
      rfl, rfl⟩
    rw [landingWrite_none_iff]
    cases hwindow : s.cfg.hostWriteWindow with
    | serviceOnly => exact .inl rfl
    | anyStep => exact .inr fun w r => laterWrites_head s.writes r w

/-! ## What ends a step -/

/-- `SVC` completes whenever its sweep has a meaning. -/
theorem svc_completes {s : State} (h : s.sweepAccepted) : ∃ t, exec .svc s = .next t := by
  rcases h with h | h
  · exact ⟨_, svc_of_noUpdate h⟩
  · rcases execSvc_cases s with ⟨r, hv, -⟩ | ⟨-, u, -, hx⟩
    · rw [h] at hv; cases hv
    · exact ⟨_, hx⟩

/-- On its turn the engine completes, but for a service window whose sweep has no meaning. -/
theorem engine_step_completes {s : State} (he : s.engineTurn) (h : s.phase ≠ .service ∨ s.sweepAccepted) :
    ∃ t, step s = .next t := by
  rw [step_engine he]
  cases hp : s.phase with
  | service =>
    obtain ⟨u, hu⟩ := svc_completes (h.resolve_left (not_not_intro hp))
    simp only [hu]
    exact ⟨_, rfl⟩
  | rstd => exact ⟨_, rfl⟩
  | rstb => exact ⟨_, rfl⟩
  | cmp => simp only [exec_cmpOf]; exact ⟨_, rfl⟩

theorem landing_step_completes {s : State} (hpres : s.presented = []) (h : ¬s.engineTurn) : ∃ t, step s = .next t := by
  rcases turn_cases s with ⟨f, r, hp⟩ | ⟨-, w, t, hl⟩ | he
  · rw [hpres] at hp; cases hp
  · exact ⟨_, step_landing hpres hl⟩
  · exact absurd he h

/-- Settles O49: the engine's step, the landing step, and the verdict that `strict` and `saturate` never give. -/
theorem engineNeverStops : Obligations.EngineNeverStops := by
  refine ⟨fun s => engine_step_completes, fun s => landing_step_completes, fun s hpres hp ho => ?_⟩
  by_cases he : s.engineTurn
  · exact engine_step_completes he (.inr (.inr (lineVerdict_none_of_strict hp ho _)))
  · exact landing_step_completes hpres he

/-- An operation is refused only by a verdict on a line. -/
theorem exec_refused {i : Instr} {s : State} {r : Refusal} (h : exec i s = .refused r) :
    ∃ line, lineVerdict s.cfg line = some r := by
  cases i using Instr.familyCases with
  | svc =>
    rcases execSvc_cases s with ⟨r', hv, hx⟩ | ⟨-, u, -, hx⟩ <;> rw [hx] at h <;> cases h
    exact ⟨_, hv⟩
  | update =>
    rw [exec_update] at h
    rcases parseLine_cases s with ⟨r', hv, hx⟩ | ⟨-, hx⟩ <;> rw [hx] at h <;> cases h
    exact ⟨_, hv⟩
  | line bytes =>
    change serviceAfterPoll (pollSweep s bytes) = _ at h
    rcases service_cases s bytes with ⟨-, hx⟩ | ⟨r', hv, hx⟩ | ⟨-, -, hx⟩ <;> rw [hx] at h <;> cases h
    exact ⟨_, hv⟩
  | poll | lbclr | rstd | rstb | dwr => cases h
  | cmp c => rw [exec_cmpOf] at h; cases h
  | pset p => rw [exec_psetOf] at h; cases h
  | pclr c => rw [exec_pclrOf] at h; cases h

theorem settle_refused {e : Bool} {o : Host.Outcome State Fault Refusal} {r : Refusal}
    (h : settle e o = .refused r) : o = .refused r := by
  cases o with
  | next t => cases h
  | fault r => cases h
  | refused r' => exact h

/-- Settles O50: no fault exists; an operation is refused by a verdict on a line, and any other refusal is the
decoder's. -/
theorem onlyNamedVerdicts : Obligations.OnlyNamedVerdicts := by
  refine fun s => ⟨nofun, fun r h => ?_⟩
  rcases turn_cases s with ⟨f, rest, hp⟩ | ⟨hp, w, t, hl⟩ | he
  · refine ⟨fun hpres => absurd (hp.symm.trans hpres) (List.cons_ne_nil f rest), ?_⟩
    cases hd : decode f with
    | error e =>
      rw [step_presented_refused hp hd] at h
      exact .inr (.inr ⟨f, rest, hp, e, hd, (Host.Outcome.refused.inj h).symm⟩)
    | ok i =>
      rw [step_presented hp hd] at h
      obtain ⟨line, hv⟩ := exec_refused h
      exact (lineVerdict_some hv).imp_right .inl
  · rw [step_landing hp hl] at h; cases h
  · refine ⟨fun _ => ?_, ?_⟩
    · have hstop : ¬(s.phase ≠ .service ∨ s.sweepAccepted) := fun hgo => by
        obtain ⟨t, ht⟩ := engine_step_completes he hgo
        rw [ht] at h; cases h
      exact ⟨by_contra fun hp => hstop (.inl hp), fun ha => hstop (.inr ha)⟩
    · rw [step_engine he] at h
      obtain ⟨line, hv⟩ := exec_refused (settle_refused h)
      exact (lineVerdict_some hv).imp_right .inl

end Sys2Proof.Machine
end

section
/-! PROOFS. The positions of the sequencer (41_cycle_controller.md R85, R86, R90): they are the step numbers of one
iteration, the next is a function of the position alone, and an iteration returns to the service window. -/

namespace Sys2Proof.Machine

/-! ## Positions and step numbers -/

/-- Settles O51: `step_follows` is the statement, `State.Follows` its conclusion. -/
theorem stepAdvancesIteration : Obligations.StepAdvancesIteration :=
  fun _ _ => step_follows

/-- The phase of the second port reset of a cycle. -/
def secondReset (cfg : Config) : Phase :=
  match cfg.prstOrder with
  | .dThenB => .rstb
  | .bThenD => .rstd

theorem iterStep_of_secondReset {s : State} (h : s.phase = secondReset s.cfg) : s.iterStep = 1 + 3074 * s.z + 1 := by
  unfold State.iterStep
  rw [h, secondReset]
  cases s.cfg.prstOrder <;> rfl

theorem reset_cases {ph : Phase} (cfg : Config) (h : ph = .rstd ∨ ph = .rstb) :
    ph = firstReset cfg ∨ ph = secondReset cfg := by
  unfold firstReset secondReset
  rcases h with rfl | rfl <;> cases cfg.prstOrder <;> simp

/-- The legal positions and their step numbers: the service window, the two resets of a cycle, its compares (R85). -/
theorem iterStep_cases {s : State} (hl : s.positionLegal = true) :
    (s.phase = .service ∧ s.z = 0 ∧ s.x = 0#8 ∧ s.i = .c2 ∧ s.iterStep = 0) ∨
    (s.phase = firstReset s.cfg ∧ s.x = 0#8 ∧ s.i = .c2 ∧ s.iterStep = 1 + 3074 * s.z) ∨
    (s.phase = secondReset s.cfg ∧ s.x = 0#8 ∧ s.i = .c2 ∧ s.iterStep = 1 + 3074 * s.z + 1) ∨
    (s.phase = .cmp ∧ s.iterStep = 1 + 3074 * s.z + (12 * s.x.toNat + s.i.num)) := by
  obtain ⟨-, hz, hstart⟩ := (positionLegal_iff s).1 hl
  have hresets (h : s.phase = .rstd ∨ s.phase = .rstb) :
      (s.phase = firstReset s.cfg ∧ s.x = 0#8 ∧ s.i = .c2 ∧ s.iterStep = 1 + 3074 * s.z) ∨
      (s.phase = secondReset s.cfg ∧ s.x = 0#8 ∧ s.i = .c2 ∧ s.iterStep = 1 + 3074 * s.z + 1) := by
    obtain ⟨hx, hi⟩ := hstart (by rcases h with h | h <;> simp [h])
    exact (reset_cases s.cfg h).imp (fun hp => ⟨hp, hx, hi, iterStep_of_firstReset hp⟩)
      fun hp => ⟨hp, hx, hi, iterStep_of_secondReset hp⟩
  cases hp : s.phase with
  | service =>
    obtain ⟨hx, hi⟩ := hstart (by simp [hp])
    exact .inl ⟨rfl, hz hp, hx, hi, iterStep_of_service hp⟩
  | rstd => exact .inr ((hp ▸ hresets (.inl hp)).imp_right .inl)
  | rstb => exact .inr ((hp ▸ hresets (.inr hp)).imp_right .inl)
  | cmp =>
    have := s.i.num_ge
    exact .inr (.inr (.inr ⟨rfl, by rw [iterStep_of_cmp hp]; omega⟩))

/-- The channel of an index, where it has one. -/
def channelAt (k : Nat) : Channel := (channelOfIndex (BitVec.ofNat 4 k)).getD .c2

theorem channelAt_num {k : Nat} (h2 : 2 ≤ k) (h14 : k < 14) : (channelAt k).num = k := by
  obtain ⟨c, hc, hnum⟩ := channel_of_updateIndex (k := k - 2) (by omega)
  rw [show 2 + (k - 2) = k by omega] at hc hnum
  rw [channelAt, hc]
  exact hnum

/-- The phase at a step number: within a cycle the two resets come first. -/
def phaseAt (cfg : Config) (n : Nat) : Phase :=
  if n = 0 then .service
  else if (n - 1) % 3074 = 0 then firstReset cfg
  else if (n - 1) % 3074 = 1 then secondReset cfg
  else .cmp

/-- A state at the position of a step number: cycle `(n - 1) / 3074`, and from step 2 of the cycle on twelve compares
to a level. -/
def stateAt (cfg : Config) (n : Nat) : State :=
  { State.powerUp cfg 0 0 [] [] with
    phase := phaseAt cfg n
    z := (n - 1) / 3074
    x := BitVec.ofNat 8 (((n - 1) % 3074 - 2) / 12)
    i := channelAt (((n - 1) % 3074 - 2) % 12 + 2) }

/-- The position of step `r` of cycle `z`. -/
theorem stateAt_position (cfg : Config) (z : Nat) {r : Nat} (hr : r < 3074) :
    (stateAt cfg (1 + 3074 * z + r)).phase =
        (if r = 0 then firstReset cfg else if r = 1 then secondReset cfg else .cmp) ∧
      (stateAt cfg (1 + 3074 * z + r)).z = z ∧
      (stateAt cfg (1 + 3074 * z + r)).x = BitVec.ofNat 8 ((r - 2) / 12) ∧
      (stateAt cfg (1 + 3074 * z + r)).i = channelAt ((r - 2) % 12 + 2) := by
  have h0 : 1 + 3074 * z + r ≠ 0 := by omega
  have hmod : (1 + 3074 * z + r - 1) % 3074 = r := by omega
  have hdiv : (1 + 3074 * z + r - 1) / 3074 = z := by omega
  simp only [stateAt, phaseAt, if_neg h0, hmod, hdiv, and_self]

/-- A legal position is that of its step number. -/
theorem samePosition_stateAt {s : State} (hl : s.positionLegal = true) :
    SamePosition s (stateAt s.cfg s.iterStep) := by
  rcases iterStep_cases hl with ⟨hp, hz, hx, hi, hn⟩ | ⟨hp, hx, hi, hn⟩ | ⟨hp, hx, hi, hn⟩ | ⟨hp, hn⟩ <;> rw [hn]
  · exact ⟨hp, hz, hx, hi⟩
  · obtain ⟨h1, h2, h3, h4⟩ := stateAt_position s.cfg s.z (r := 0) (by decide)
    exact ⟨hp.trans h1.symm, h2.symm, hx.trans h3.symm, hi.trans h4.symm⟩
  · obtain ⟨h1, h2, h3, h4⟩ := stateAt_position s.cfg s.z (r := 1) (by decide)
    exact ⟨hp.trans h1.symm, h2.symm, hx.trans h3.symm, hi.trans h4.symm⟩
  · have h2 := s.i.num_ge
    have h14 := s.i.num_lt
    have hx := s.x.isLt
    obtain ⟨hphase, hz, hlevel, hchannel⟩ :=
      stateAt_position s.cfg s.z (r := 12 * s.x.toNat + s.i.num) (by omega)
    rw [if_neg (by omega), if_neg (by omega)] at hphase
    have hdiv : (12 * s.x.toNat + s.i.num - 2) / 12 = s.x.toNat := by omega
    have hmod : (12 * s.x.toNat + s.i.num - 2) % 12 + 2 = s.i.num := by omega
    rw [hdiv, BitVec.ofNat_toNat, BitVec.setWidth_eq] at hlevel
    rw [hmod] at hchannel
    exact ⟨hp.trans hphase.symm, hz.symm, hlevel.symm,
      hchannel ▸ Channel.num_inj (channelAt_num h2 h14).symm⟩

/-- The state at a step number stands at a legal position of that number. -/
theorem stateAt_legal {cfg : Config} {n : Nat} (hK : 1 ≤ cfg.K) (hn : n < iterLength cfg) :
    (stateAt cfg n).positionLegal = true ∧ (stateAt cfg n).iterStep = n := by
  unfold iterLength at hn
  have hcfg : (stateAt cfg n).cfg = cfg := rfl
  by_cases h0 : n = 0
  · subst h0
    exact ⟨(positionLegal_iff _).2 ⟨hK, fun _ => rfl, fun _ => ⟨rfl, rfl⟩⟩, iterStep_of_service rfl⟩
  obtain ⟨z, r, hr, rfl⟩ : ∃ z r, r < 3074 ∧ n = 1 + 3074 * z + r :=
    ⟨(n - 1) / 3074, (n - 1) % 3074, Nat.mod_lt _ (by decide), by omega⟩
  obtain ⟨hphase, hz, hx, hi⟩ := stateAt_position cfg z hr
  have hzK : (stateAt cfg (1 + 3074 * z + r)).z < cfg.K := by omega
  by_cases hr2 : r < 2
  · -- one of the two port resets
    have hr0 : (r - 2) / 12 = 0 ∧ (r - 2) % 12 = 0 := by omega
    rw [hr0.1] at hx
    rw [hr0.2] at hi
    by_cases h : r = 0
    · rw [if_pos h] at hphase
      refine ⟨(positionLegal_iff _).2 ⟨hzK, fun hs => ?_, fun _ => ⟨hx, hi⟩⟩, ?_⟩
      · rcases firstReset_cases cfg with h | h <;> rw [hphase, h] at hs <;> cases hs
      · rw [iterStep_of_firstReset hphase, hz]
        omega
    · rw [if_neg h, if_pos (by omega)] at hphase
      refine ⟨(positionLegal_iff _).2 ⟨hzK, fun hs => ?_, fun _ => ⟨hx, hi⟩⟩, ?_⟩
      · rw [hphase, secondReset] at hs
        split at hs <;> cases hs
      · rw [iterStep_of_secondReset hphase, hz]
        omega
  · rw [if_neg (by omega), if_neg (by omega)] at hphase
    refine ⟨(positionLegal_iff _).2 ⟨hzK, fun hs => ?_, fun hc => absurd hphase hc⟩, ?_⟩
    · rw [hphase] at hs; cases hs
    · rw [iterStep_of_cmp hphase, hz, hx, hi, channelAt_num (by omega) (by omega), BitVec.toNat_ofNat]
      omega

theorem SamePosition.symm {s t : State} (h : SamePosition s t) : SamePosition t s := by
  obtain ⟨hphase, hz, hx, hi⟩ := h
  exact ⟨hphase.symm, hz.symm, hx.symm, hi.symm⟩

theorem SamePosition.trans {s t u : State} (h : SamePosition s t) (h' : SamePosition t u) : SamePosition s u := by
  obtain ⟨hphase, hz, hx, hi⟩ := h
  obtain ⟨hphase', hz', hx', hi'⟩ := h'
  exact ⟨hphase.trans hphase', hz.trans hz', hx.trans hx', hi.trans hi'⟩

/-- Settles O52: `stateAt` gives the position of a number, and a legal position is that of its own. -/
theorem positionsAreStepNumbers : Obligations.PositionsAreStepNumbers := by
  refine ⟨fun s => iterStep_lt, fun s t hs ht hcfg hn => ?_,
    fun cfg n hK hn => ⟨stateAt cfg n, rfl, stateAt_legal hK hn⟩⟩
  have hst := samePosition_stateAt hs
  rw [hcfg, hn] at hst
  exact hst.trans (samePosition_stateAt ht).symm

/-! ## The next position -/

/-- A state at the position that follows that of `s` (R78). -/
def State.positionAfter (s : State) : State :=
  match s.phase with
  | .service => { s with phase := firstReset s.cfg }
  | .rstd => { s with phase := phaseAfterRstd s.cfg }
  | .rstb => { s with phase := phaseAfterRstb s.cfg }
  | .cmp => advance s s.i

theorem step_positionAfter {s t : State} (he : s.engineTurn) (h : step s = .next t) :
    SamePosition t s.positionAfter := by
  rcases step_engine_cases he h with ⟨hp, u, hu, rfl⟩ | ⟨hp, rfl⟩ | ⟨hp, rfl⟩ | ⟨hp, rfl⟩ <;>
    simp only [State.positionAfter, hp]
  · obtain ⟨hcfg, -, -, -, hz, hx, hi, -⟩ := serviceOfPoll_frame hu
    simp [SamePosition, hcfg, hz, hx, hi]
  · simp [SamePosition]
  · simp [SamePosition]
  · rw [advance_compareChannel]
    exact ⟨rfl, rfl, rfl, rfl⟩

theorem advance_congr {s t : State} (c : Channel) (h : SamePosition s t) (hK : s.cfg.K = t.cfg.K)
    (ho : s.cfg.prstOrder = t.cfg.prstOrder) : SamePosition (advance s c) (advance t c) := by
  obtain ⟨hphase, hz, hx, -⟩ := h
  unfold advance
  cases nextChannel c with
  | some d => exact ⟨hphase, hz, hx, rfl⟩
  | none =>
    simp only [firstReset, hx, hz, hK, ho]
    by_cases hlevel : t.x.toNat < 255
    · simp [SamePosition, hlevel, hphase]
    · by_cases hcycle : t.z < t.cfg.K - 1 <;> simp [SamePosition, hlevel, hcycle]

/-- The next position reads of a state its position, `K` and the order of the resets only. -/
theorem positionAfter_congr {s t : State} (h : SamePosition s t) (hK : s.cfg.K = t.cfg.K)
    (ho : s.cfg.prstOrder = t.cfg.prstOrder) : SamePosition s.positionAfter t.positionAfter := by
  obtain ⟨hphase, hz, hx, hi⟩ := h
  unfold State.positionAfter
  rw [hphase]
  cases t.phase with
  | service | rstd | rstb =>
    simp [SamePosition, firstReset, phaseAfterRstd, phaseAfterRstb, ho, hz, hx, hi]
  | cmp =>
    simp only [hi]
    exact advance_congr t.i ⟨hphase, hz, hx, hi⟩ hK ho

/-- Settles O33: the selected word and `positionAfter` are functions of the position. -/
theorem microopsIndependentOfData : Obligations.MicroopsIndependentOfData := by
  refine fun s t h => ⟨?_, fun hK ho hes het s' t' hs ht => ?_⟩
  · obtain ⟨hphase, -, -, hi⟩ := h
    simp only [selectWord, hphase, hi]
  · exact ((step_positionAfter hes hs).trans (positionAfter_congr h hK ho)).trans (step_positionAfter het ht).symm

/-! ## Whole iterations -/

theorem core_run_of_step {s t : State} (h : step s = .next t) (n : Nat) :
    Sys2Proof.core.run (n + 1) s = Sys2Proof.core.run n t :=
  (core_run_succ n s).trans (congrArg (andThen · (Sys2Proof.core.run n)) h)

/-- The engine stays alone through its steps. -/
theorem step_keeps_alone {s t : State} (ha : s.engineAlone) (h : step s = .next t) : t.engineAlone := by
  refine ⟨by rw [step_takes_presented h, ha.1]; rfl, ?_⟩
  rw [(step_keeps h).1]
  refine ha.2.imp_right fun hw => ?_
  rcases step_engine_cases (engineTurn_of_alone ha) h with ⟨-, u, hu, rfl⟩ | ⟨-, rfl⟩ | ⟨-, rfl⟩ | ⟨-, rfl⟩
  · obtain ⟨-, -, -, -, -, -, -, -, hwrites, -⟩ := serviceOfPoll_frame hu
    simp [hwrites, hw, laterWrites, tickWrites]
  all_goals simp [hw, tickWrites]

/-- Settles O53: the `SVC` completes, and the engine alone renders the rest of the iteration. -/
theorem iterationReturnsToService : Obligations.IterationReturnsToService := by
  intro s hl hp ha hsweep
  have he := engineTurn_of_alone ha
  obtain ⟨t, ht⟩ := engine_step_completes he (.inr hsweep)
  obtain ⟨u, hu⟩ := svc_completes hsweep
  obtain ⟨htl, htn⟩ := step_follows hl he ht
  have hcfg := (step_keeps ht).1
  have hstep := step_engine he
  rw [hp] at hstep
  simp only [hu, ht] at hstep
  have htu : t = { u with writes := tickWrites u.writes } := Host.Outcome.next.inj hstep
  have hduty : t.duty = u.duty := by rw [htu]
  have hL : iterLength s.cfg = 1 + 3074 * s.cfg.K := rfl
  have hLt : iterLength t.cfg = 1 + 3074 * s.cfg.K := hcfg ▸ hL
  obtain ⟨hK, -⟩ := (positionLegal_iff s).1 hl
  rw [iterStep_of_service hp, Nat.mod_eq_of_lt (by omega)] at htn
  obtain ⟨v, hrun, hr, hvl, hvn⟩ := run_renders htl (step_keeps_alone ha ht) (by omega) (3074 * s.cfg.K)
    (by omega)
  rw [htn, hLt, Nat.mod_self] at hvn
  refine ⟨v, u, ?_, hu, ?_, hr.cfg.trans hcfg, hr.duty.trans hduty⟩
  · rw [hL, Nat.add_comm]
    exact (core_run_of_step ht _).trans hrun
  · obtain ⟨h1, h2, h3, h4⟩ := position_of_iterStep_zero hvl hvn
    obtain ⟨h1', h2', h3', h4'⟩ := position_of_iterStep_zero hl (iterStep_of_service hp)
    exact ⟨h1.trans h1'.symm, h2.trans h2'.symm, h3.trans h3'.symm, h4.trans h4'.symm⟩

/-! ## From power-up -/

/-- `RSTD` as a step, under this hardware's port bytes and order. -/
theorem step_rstd_of_standardEngine {s : State} (h : s.cfg.standardEngine = true) (he : s.engineTurn)
    (hp : s.phase = .rstd) : step s = .next { s with pd := 0xFF#8, phase := .rstb, writes := tickWrites s.writes } := by
  rw [step_engine he, hp, exec_rstd_of_standardEngine h]
  rfl

/-- `RSTB` as a step, under this hardware's port bytes and order. -/
theorem step_rstb_of_standardEngine {s : State} (h : s.cfg.standardEngine = true) (he : s.engineTurn)
    (hp : s.phase = .rstb) : step s = .next { s with pb := 0xFF#8, phase := .cmp, writes := tickWrites s.writes } := by
  rw [step_engine he, hp, exec_rstb_of_standardEngine h]
  rfl

/-- Settles O44: the `SVC` of the accepted sweep, then the two port resets, each a step of its own. -/
theorem firstStepsAfterReset : Obligations.FirstStepsAfterReset := by
  intro cfg d b sw h hsweep
  have ha : (State.powerUp cfg d b sw []).engineAlone := ⟨rfl, .inr rfl⟩
  have he := engineTurn_of_alone ha
  obtain ⟨t, ht⟩ := engine_step_completes he (.inr hsweep)
  have hat := step_keeps_alone ha ht
  have hcfg : t.cfg = cfg := (step_keeps ht).1
  obtain ⟨hphase, hz, hx, hi⟩ := step_positionAfter he ht
  have ht2 := step_rstd_of_standardEngine (hcfg ▸ h) (engineTurn_of_alone hat)
    (hphase.trans (firstReset_of_standardEngine h))
  have hau := step_keeps_alone hat ht2
  have ht3 := step_rstb_of_standardEngine (hcfg ▸ h) (engineTurn_of_alone hau) rfl
  refine ⟨{ t with pd := 0xFF#8, pb := 0xFF#8, phase := .cmp, writes := tickWrites (tickWrites t.writes) }, ?_, rfl,
    rfl, rfl, hz, hx, hi⟩
  exact (core_run_of_step ht 2).trans ((core_run_of_step ht2 1).trans (core_run_of_step ht3 0))

end Sys2Proof.Machine
end

section
/-! PROOFS. The output lines through one step of the engine (42_comparator_toggle.md): what moves a line, on what it
depends, and that the engine reads no port. -/

namespace Sys2Proof.Machine

/-! ## The port resets and the counters of a compare -/

/-- Settles O26: the two resets are `PortSetAll` of their port and the move of the phase. -/
theorem portResetUnderEveryOption : Obligations.PortResetUnderEveryOption := by
  intro s
  refine ⟨?_, ?_, fun hwf c t ht hc => ?_, fun hwf c t ht hc => ?_⟩
  · rw [exec_rstd, phaseAfterRstd]
    cases s.cfg.prstOrder <;> rfl
  · rw [exec_rstb, phaseAfterRstb]
    cases s.cfg.prstOrder <;> rfl
  · obtain rfl := Host.Outcome.next.inj ht
    exact (out_of_portSetAll_ports hwf rfl rfl c).trans (if_pos ((portMap_pd_iff c).2 hc))
  · obtain rfl := Host.Outcome.next.inj ht
    exact (out_of_portSetAll_ports hwf rfl rfl c).trans (if_pos ((portMap_pb_iff c).2 hc))

/-- Settles O31: the counters after a compare are those of `advance_cases`. -/
theorem compareAdvancesCounters : Obligations.CompareAdvancesCounters := by
  intro s c
  refine ⟨_, exec_cmpOf c s, ?_⟩
  rw [advance_compareChannel]
  rcases advance_cases s c with ⟨hc, d, hd, ha⟩ | ⟨rfl, hx, ha⟩ | ⟨rfl, hx, hz, ha⟩ | ⟨rfl, hx, hz, ha⟩ <;> rw [ha]
  · refine ⟨fun _ => ⟨hd, rfl, rfl, rfl⟩, fun h => ?_⟩
    rw [h] at hc
    exact absurd hc (by decide)
  · have hx1 : (s.x + 1#8).toNat = s.x.toNat + 1 := by bv_omega
    exact ⟨fun h => absurd rfl h, fun _ => ⟨rfl, fun _ => ⟨hx1, rfl, rfl⟩, fun h => by omega⟩⟩
  · refine ⟨fun h => absurd rfl h, fun _ => ⟨rfl, fun h => ?_, fun _ => ⟨rfl, fun _ => ⟨rfl, rfl⟩, fun h => ?_⟩⟩⟩ <;>
      omega
  · refine ⟨fun h => absurd rfl h, fun _ => ⟨rfl, fun h => ?_, fun _ => ⟨rfl, fun h => ?_, fun _ => ⟨rfl, rfl⟩⟩⟩⟩ <;>
      omega

/-! ## A line after a step -/

/-- The line of channel `c` after the engine's step: the service window moves none, a reset gives its port's lines the
all-high byte, and a compare lowers its own on a match. -/
def State.lineAfter (s : State) (c : Channel) : Bool :=
  match s.phase with
  | .service => s.out c
  | .rstd => (portSetAll s .pd).out c
  | .rstb => (portSetAll s .pb).out c
  | .cmp => s.out c && !(decide (s.i = c) && dutyMatches s c)

theorem out_step {s t : State} (he : s.engineTurn) (h : step s = .next t) (c : Channel) : t.out c = s.lineAfter c := by
  rcases step_engine_cases he h with ⟨hp, u, hu, rfl⟩ | ⟨hp, rfl⟩ | ⟨hp, rfl⟩ | ⟨hp, rfl⟩ <;>
    simp only [State.lineAfter, hp]
  · obtain ⟨-, hpd, hpb, -⟩ := serviceOfPoll_frame hu
    exact out_congr (by simp [hpd]) (by simp [hpb]) c
  · exact out_congr rfl rfl c
  · exact out_congr rfl rfl c
  · refine (out_congr (t := compareChannel s s.i) (by simp) (by simp) c).trans ?_
    rw [out_compareChannel]
    by_cases hi : s.i = c <;> simp [hi]

/-- A landing duty write moves no line. -/
theorem out_landing {s t : State} (hpres : s.presented = []) (he : ¬s.engineTurn) (h : step s = .next t) (c : Channel) :
    t.out c = s.out c := by
  rcases turn_cases s with ⟨f, r, hp⟩ | ⟨-, w, u, hl⟩ | he'
  · rw [hpres] at hp; cases hp
  · obtain ⟨-, r, -, rfl⟩ := landingWrite_some hl
    rw [step_landing hpres hl] at h
    obtain rfl := Host.Outcome.next.inj h
    exact out_dutyStore _ _ _ c
  · exact absurd he' he

theorem out_portSetAll_congr {s t : State} (hcfg : s.cfg = t.cfg) (p : PortSel) {c : Channel} (h : s.out c = t.out c) :
    (portSetAll s p).out c = (portSetAll t p).out c := by
  unfold State.out at h ⊢
  rw [port_portSetAll, port_portSetAll, hcfg]
  split
  · rfl
  · exact h

/-- Settles O35: `lineAfter` reads the position, the configuration, and the channel's own line and duty entry. -/
theorem channelsIndependent : Obligations.ChannelsIndependent := by
  intro s t s' t' c hcfg ⟨hphase, _, hx, hi⟩ hduty hout hes het hs ht
  have hmatch : dutyMatches s c = dutyMatches t c := by rw [dutyMatches, dutyMatches, hduty, hx]
  rw [out_step hes hs, out_step het ht]
  unfold State.lineAfter
  rw [hphase]
  cases t.phase with
  | service => exact hout
  | rstd => exact out_portSetAll_congr hcfg .pd hout
  | rstb => exact out_portSetAll_congr hcfg .pb hout
  | cmp => simp only [hout, hi, hmatch]

/-- A match, as the equality of the duty value and the zero-extended level (R94). -/
theorem eq_zext16_of_dutyMatches {s : State} {c : Channel} (h : dutyMatches s c = true) : dutyRead s c = zext16 s.x :=
  beq_iff_eq.1 h

/-- What moves a line in a step of the hardware: a matching compare of its channel lowers it, the reset of its port
raises it. -/
theorem line_moves {s t : State} {c : Channel} (hwf : s.cfg.wf = true) (hpres : s.presented = [])
    (h : step s = .next t) (hne : s.out c ≠ t.out c) :
    (t.out c = false ∧ s.phase = .cmp ∧ s.i = c ∧ dutyRead s c = zext16 s.x) ∨
    (t.out c = true ∧ ((s.phase = .rstd ∧ (portMap c).1 = .pd) ∨ (s.phase = .rstb ∧ (portMap c).1 = .pb))) := by
  by_cases he : s.engineTurn
  · have hout := out_step he h c
    rw [hout] at hne ⊢
    unfold State.lineAfter at hne ⊢
    cases hp : s.phase with
    | service => simp [hp] at hne
    | rstd =>
      simp only [hp, out_portSetAll hwf] at hne ⊢
      by_cases hc : (portMap c).1 = .pd <;> simp [hc] at hne ⊢
    | rstb =>
      simp only [hp, out_portSetAll hwf] at hne ⊢
      by_cases hc : (portMap c).1 = .pb <;> simp [hc] at hne ⊢
    | cmp =>
      simp only [hp] at hne ⊢
      by_cases hc : s.i = c ∧ dutyMatches s c = true
      · exact .inl ⟨by simp [hc], trivial, hc.1, eq_zext16_of_dutyMatches hc.2⟩
      · rw [← decide_eq_true_iff (p := s.i = c), ← Bool.and_eq_true, Bool.not_eq_true] at hc
        simp [hc] at hne
  · exact absurd (out_landing hpres he h c).symm hne

/-- Settles O36: a line that falls was lowered, and a line that rises was raised. -/
theorem lineMovesOnlyByItsOwnCause : Obligations.LineMovesOnlyByItsOwnCause := by
  refine fun s t c hwf hpres h => ⟨fun hs ht => ?_, fun hs ht => ?_⟩
  · rcases line_moves hwf hpres h (by rw [hs, ht]; decide) with ⟨-, hmoved⟩ | ⟨hup, -⟩
    · exact hmoved
    · rw [ht] at hup; cases hup
  · rcases line_moves hwf hpres h (by rw [hs, ht]; decide) with ⟨hdown, -⟩ | ⟨-, hmoved⟩
    · rw [ht] at hdown; cases hdown
    · exact hmoved

/-- Settles O37: one compare lowers the line of one channel only, so two lines that move were both raised. -/
theorem linesNeverFallTogether : Obligations.LinesNeverFallTogether := by
  intro s t c d hwf hpres h hcd hc hd
  rcases line_moves hwf hpres h hc with ⟨-, hcp, hci, -⟩ | ⟨hct, hcp⟩ <;>
    rcases line_moves hwf hpres h hd with ⟨-, hdp, hdi, -⟩ | ⟨hdt, hdp⟩
  · exact absurd (hci.symm.trans hdi) hcd
  · simp [hcp] at hdp
  · simp [hdp] at hcp
  · rcases hcp with ⟨hp, hc⟩ | ⟨hp, hc⟩ <;>
      simp only [hp, reduceCtorEq, true_and, false_and, or_false, false_or] at hdp
    · exact ⟨hc.trans hdp.symm, hct, hdt, .inl hp⟩
    · exact ⟨hc.trans hdp.symm, hct, hdt, .inr hp⟩

/-! ## The engine reads no port -/

/-- `s` with `d` and `b` in the port registers. -/
def State.withPorts (s : State) (d b : Byte) : State := { s with pd := d, pb := b }

section
variable (s : State) (d b : Byte)

theorem advance_withPorts (c : Channel) : advance (s.withPorts d b) c = (advance s c).withPorts d b := by
  have hx : (s.withPorts d b).x = s.x := rfl
  have hz : (s.withPorts d b).z = s.z := rfl
  have hcfg : (s.withPorts d b).cfg = s.cfg := rfl
  unfold advance
  cases nextChannel c with
  | some c' => rfl
  | none =>
    simp only [hx, hz, hcfg, apply_ite fun t : State => t.withPorts d b]
    rfl

/-- The compare leaves other ports, and all else alike. -/
theorem compareChannel_withPorts (c : Channel) :
    ∃ d' b', compareChannel (s.withPorts d b) c = (compareChannel s c).withPorts d' b' := by
  refine ⟨(compareChannel (s.withPorts d b) c).pd, (compareChannel (s.withPorts d b) c).pb, ?_⟩
  rw [compareChannel_frame s c]
  exact compareChannel_frame (s.withPorts d b) c

theorem dutyStore_withPorts (idx : DutyIndex) (v : DutyValue) :
    dutyStore (s.withPorts d b) idx v = (dutyStore s idx v).withPorts d b := by
  unfold dutyStore
  cases channelOfIndex idx <;> rfl

theorem writeFields_withPorts (k : Nat) (fs : List Field) :
    writeFields (s.withPorts d b) k fs = (writeFields s k fs).withPorts d b := by
  induction fs generalizing s k with
  | nil => rfl
  | cons f fs ih =>
    simp only [writeFields, dutyStore_withPorts]
    split <;> exact ih _ _

theorem landWrites_withPorts : landWrites (s.withPorts d b) = (landWrites s).withPorts d b := by
  change storeWords (State.withPorts { s with writes := laterWrites s.writes } d b) (arrivedWrites s.writes) = _
  unfold landWrites storeWords
  generalize ({ s with writes := laterWrites s.writes } : State) = t
  induction arrivedWrites s.writes generalizing t with
  | nil => rfl
  | cons w ws ih => rw [List.foldl_cons, List.foldl_cons, dutyStore_withPorts, ih]

theorem poll_withPorts : poll (s.withPorts d b) = ((poll s).1, (poll s).2.withPorts d b) := by
  have ht : takeSweep (s.withPorts d b) = ((takeSweep s).1, (takeSweep s).2.withPorts d b) := by
    rw [← Prod.eta (takeSweep _), takeSweep_state, takeSweep_state]
    exact Prod.ext (by unfold takeSweep; cases h : s.sweeps <;> simp [State.withPorts, h]) rfl
  have hcfg : ((takeSweep s).2.withPorts d b).cfg = (takeSweep s).2.cfg := rfl
  unfold poll
  rw [ht]
  unfold pollSweep
  rw [hcfg]
  split <;> rfl

theorem serviceAfterPoll_withPorts (q : PollResult × State) :
    serviceAfterPoll (q.1, q.2.withPorts d b) =
      andThen (serviceAfterPoll q) fun t => .next (t.withPorts d b) := by
  obtain ⟨r, t⟩ := q
  cases r with
  | noUpdate => rfl
  | updateAvailable =>
    have hcfg : (t.withPorts d b).cfg = t.cfg := rfl
    have hlb : (t.withPorts d b).lb = t.lb := rfl
    simp only [serviceAfterPoll, parseLine, hcfg, hlb, writeFields_withPorts]
    cases lineVerdict t.cfg t.lb.line <;> rfl

theorem execSvc_withPorts :
    exec .svc (s.withPorts d b) = andThen (exec .svc s) fun t => .next (t.withPorts d b) := by
  rw [exec_svc, exec_svc, poll_withPorts, serviceAfterPoll_withPorts]
  cases serviceAfterPoll (poll s) with
  | next t => simp only [andThen, landWrites_withPorts]; rfl
  | fault r => rfl
  | refused r => rfl

end

/-- Two outcomes that end alike, and differ in the port registers only. -/
inductive PortsApart : Host.Outcome State Fault Refusal → Host.Outcome State Fault Refusal → Prop
  | next {t u : State} (h : u = { t with pd := u.pd, pb := u.pb }) : PortsApart (.next t) (.next u)
  | refused (r : Refusal) : PortsApart (.refused r) (.refused r)

theorem PortsApart.settle_true {o q : Host.Outcome State Fault Refusal} (h : PortsApart o q) :
    PortsApart (settle true o) (settle true q) := by
  cases h with
  | next h => exact .next (congrArg (fun v : State => { v with writes := tickWrites v.writes }) h)
  | refused r => exact .refused r

theorem PortsApart.outcomes {o q : Host.Outcome State Fault Refusal} (h : PortsApart o q) :
    (∀ t, o = .next t → ∃ u, q = .next u ∧ u = { t with pd := u.pd, pb := u.pb }) ∧
      ∀ r, o = .refused r → q = .refused r := by
  cases h with
  | next h =>
    refine ⟨fun t ht => ?_, fun r hr => (by cases hr)⟩
    obtain rfl := Host.Outcome.next.inj ht
    exact ⟨_, rfl, h⟩
  | refused r => exact ⟨fun t ht => (by cases ht), fun r' hr => hr⟩

/-- Whatever the ports hold, an operation of the engine ends alike but for the ports. -/
theorem engine_portsApart (s : State) (d b : Byte) :
    PortsApart (exec .svc s) (exec .svc (s.withPorts d b)) ∧
    PortsApart (exec .rstd s) (exec .rstd (s.withPorts d b)) ∧
    PortsApart (exec .rstb s) (exec .rstb (s.withPorts d b)) ∧
    ∀ c, PortsApart (exec (cmpOf c) s) (exec (cmpOf c) (s.withPorts d b)) := by
  refine ⟨?_, .next rfl, .next rfl, fun c => ?_⟩
  · rw [execSvc_withPorts]
    cases exec .svc s with
    | next t => exact .next rfl
    | fault r => exact nomatch r
    | refused r => exact .refused r
  · obtain ⟨d', b', hc⟩ := compareChannel_withPorts s d b c
    rw [exec_cmpOf, exec_cmpOf, hc, advance_withPorts]
    exact .next rfl

theorem step_portsApart {s : State} {d b : Byte} (he : s.engineTurn) (he' : (s.withPorts d b).engineTurn) :
    PortsApart (step s) (step (s.withPorts d b)) := by
  obtain ⟨hsvc, hrstd, hrstb, hcmp⟩ := engine_portsApart s d b
  have hphase : (s.withPorts d b).phase = s.phase := rfl
  have hi : (s.withPorts d b).i = s.i := rfl
  rw [step_engine he, step_engine he', hphase, hi]
  cases s.phase with
  | service => exact hsvc.settle_true
  | rstd => exact hrstd.settle_true
  | rstb => exact hrstb.settle_true
  | cmp => exact (hcmp s.i).settle_true

/-- Settles O34: each operation of the engine ends alike but for the ports, and so does its step. -/
theorem portsNeverRead : Obligations.PortsNeverRead := by
  intro s d b he
  have he' : (s.withPorts d b).engineTurn := ⟨he.1, (landingWrite_none_iff _).2 ((landingWrite_none_iff s).1 he.2)⟩
  exact (step_portsApart he he').outcomes

end Sys2Proof.Machine
end

section
/-! PROOFS. The waveform of a line (42_comparator_toggle.md section 2): a compare of the cycle, as a step of the line
and of the levels still to be compared; the invariant of the waveform; and the edges of a whole cycle by steps. -/

namespace Sys2Proof.Machine

/-! ## One compare of a cycle -/

theorem nextLevel_congr {s t : State} (h : SamePosition s t) (c : Channel) : s.nextLevel c = t.nextLevel c := by
  obtain ⟨-, -, hx, hi⟩ := h
  simp only [State.nextLevel, hx, hi]

theorem nextLevel_current {s : State} {c : Channel} (h : s.i = c) : s.nextLevel c = s.x.toNat := by
  simp [State.nextLevel, h]

/-- The counter updates take the level of the compare just done from its channel, and from no other; after the last
compare of the cycle no level is left for any (R82 to R84). -/
theorem nextLevel_advance {s : State} (hp : s.phase = .cmp) (c : Channel) :
    ((advance s s.i).phase = .cmp → (advance s s.i).nextLevel c = s.nextLevel c + if s.i = c then 1 else 0) ∧
    ((advance s s.i).phase ≠ .cmp → s.nextLevel c + (if s.i = c then 1 else 0) = 256) := by
  have hnum : s.i = c ↔ s.i.num = c.num := ⟨fun h => by rw [h], Channel.num_inj⟩
  have h2 := c.num_ge
  have h14 := c.num_lt
  have h13 (h : s.i = .c13) : s.i.num = 13 := by rw [h]; rfl
  have hreset : firstReset s.cfg ≠ .cmp := by rcases firstReset_cases s.cfg with h | h <;> simp [h]
  simp only [State.nextLevel, hnum]
  rcases advance_cases s s.i with ⟨hi, d, hd, ha⟩ | ⟨hi, hx, ha⟩ | ⟨hi, hx, hz, ha⟩ | ⟨hi, hx, hz, ha⟩ <;> rw [ha]
  · refine ⟨fun _ => ?_, fun h => absurd hp h⟩
    simp only [hd]
    split_ifs <;> omega
  · have hx1 : (s.x + 1#8).toNat = s.x.toNat + 1 := by bv_omega
    have hi := h13 hi
    have hc2 : Channel.c2.num = 2 := rfl
    refine ⟨fun _ => ?_, fun h => absurd hp h⟩
    simp only [hx1, hc2]
    split_ifs <;> omega
  · have hi := h13 hi
    refine ⟨fun h => absurd h hreset, fun _ => ?_⟩
    split_ifs <;> omega
  · have hi := h13 hi
    refine ⟨nofun, fun _ => ?_⟩
    split_ifs <;> omega

/-- A step in phase `CMP`: the duty value of a channel stands, its line falls exactly if the compare was its own and
found that value equal to the level, and the level of that compare is taken from those that are left. -/
theorem compare_step {s t : State} (he : s.engineTurn) (hp : s.phase = .cmp) (h : step s = .next t) (c : Channel) :
    dutyRead t c = dutyRead s c ∧
      t.out c = (s.out c && !decide (s.i = c ∧ (dutyRead s c).toNat = s.x.toNat)) ∧
      (t.phase = .cmp → t.nextLevel c = s.nextLevel c + if s.i = c then 1 else 0) ∧
      (t.phase ≠ .cmp → s.nextLevel c + (if s.i = c then 1 else 0) = 256) := by
  have hpos := step_positionAfter he h
  rw [State.positionAfter, hp] at hpos
  refine ⟨?_, ?_, ?_⟩
  · have hcases := step_engine_cases he h
    simp only [hp, reduceCtorEq, false_and, true_and, false_or] at hcases
    exact dutyRead_congr (by simp [hcases]) c
  · rw [out_step he h]
    simp only [State.lineAfter, hp, Bool.decide_and, ← dutyMatches_iff, Bool.decide_eq_true]
  · rw [nextLevel_congr hpos, hpos.1]
    exact nextLevel_advance hp c

/-- Settles O42: the compare that takes a level from those left lowers the line if the duty value is that level. -/
theorem midCycleDutyDecidesTheLine : Obligations.MidCycleDutyDecidesTheLine := by
  intro s t c he hp h
  obtain ⟨hduty, hout, hnext, hlast⟩ := compare_step he hp h c
  have hlow : t.out c = false ↔ s.out c = false ∨ (s.i = c ∧ (dutyRead s c).toNat = s.x.toNat) := by
    rw [hout, Bool.and_eq_false_iff, Bool.not_eq_false', decide_eq_true_iff]
  have hx := s.x.isLt
  refine ⟨fun hs => hlow.2 (.inl hs), fun htp => ?_, fun htp => ?_⟩
  · have hnext := hnext htp
    rw [State.endsLow, State.endsLow, hlow, hduty, or_assoc]
    refine or_congr_right ?_
    by_cases hi : s.i = c
    · rw [if_pos hi, nextLevel_current hi] at hnext
      rw [nextLevel_current hi]
      simp only [hi, true_and]
      omega
    · rw [if_neg hi] at hnext
      simp [hi, hnext]
  · have hlast := hlast htp
    rw [State.endsLow, hlow]
    refine or_congr_right ?_
    by_cases hi : s.i = c
    · rw [if_pos hi, nextLevel_current hi] at hlast
      rw [nextLevel_current hi]
      simp only [hi, true_and]
      omega
    · rw [if_neg hi] at hlast
      simp only [hi, false_and, false_iff]
      omega

/-! ## The invariant of the waveform -/

theorem waveform_of_service {s : State} (h : s.phase = .service) : s.Waveform := by
  unfold State.Waveform
  rw [h]
  trivial

theorem waveform_of_firstReset {s : State} (h : s.phase = firstReset s.cfg) : s.Waveform := by
  unfold State.Waveform
  rw [h, firstReset]
  cases ho : s.cfg.prstOrder <;> simp

/-- At the start of the compares every level is still to be compared, and every line is high. -/
theorem waveform_of_all_high {s : State} (hp : s.phase = .cmp) (hx : s.x = 0#8) (hi : s.i = .c2)
    (h : ∀ c, s.out c = true) : s.Waveform := by
  unfold State.Waveform
  rw [hp]
  intro c
  have hlevel : s.nextLevel c = 0 := by
    have hc : Channel.c2.num ≤ c.num := c.num_ge
    simp [State.nextLevel, hx, hi, hc]
  simp [h c, hlevel]

theorem PortSel.eq_pb_of_ne {p : PortSel} (h : p ≠ .pd) : p = .pb := by
  cases p with
  | pd => exact absurd rfl h
  | pb => rfl

theorem PortSel.eq_pd_of_ne {p : PortSel} (h : p ≠ .pb) : p = .pd := by
  cases p with
  | pd => rfl
  | pb => exact absurd rfl h

/-- The second reset raises the lines of its port, and those of the other were high before it. -/
theorem waveform_of_second_reset {s t : State} {p : PortSel} (hp : t.phase = .cmp) (hx : t.x = 0#8) (hi : t.i = .c2)
    (hraised : ∀ c, t.out c = if (portMap c).1 = p then true else s.out c)
    (hfirst : ∀ c, (portMap c).1 ≠ p → s.out c = true) : t.Waveform :=
  waveform_of_all_high hp hx hi fun c => by
    rw [hraised]
    split
    · rfl
    · next hc => exact hfirst c hc

theorem advance_phase (s : State) (c : Channel) : (advance s c).phase = s.phase ∨
    (advance s c).phase = firstReset s.cfg ∨ (advance s c).phase = .service := by
  rcases advance_cases s c with ⟨-, d, -, ha⟩ | ⟨-, -, ha⟩ | ⟨-, -, -, ha⟩ | ⟨-, -, -, ha⟩ <;> simp [ha]

/-- A compare keeps the waveform: the line falls as the level of its duty value is taken from those left. -/
theorem waveform_of_compare {s t : State} (he : s.engineTurn) (hp : s.phase = .cmp) (h : step s = .next t)
    (htp : t.phase = .cmp) (hw : s.Waveform) : t.Waveform := by
  unfold State.Waveform at hw ⊢
  rw [hp] at hw
  rw [htp]
  intro c
  obtain ⟨hduty, hout, hnext, -⟩ := compare_step he hp h c
  rw [hout, hw c, hduty, hnext htp, Bool.eq_iff_iff]
  simp only [Bool.and_eq_true, Bool.not_eq_true', decide_eq_true_iff, decide_eq_false_iff_not]
  by_cases hi : s.i = c
  · rw [nextLevel_current hi]
    simp only [hi, if_true, true_and]
    omega
  · simp only [hi, if_false, false_and, not_false_eq_true, and_true, Nat.add_zero]

/-- The lines after a port reset. -/
theorem out_after_reset {s t : State} (hwf : s.cfg.wf = true) (he : s.engineTurn) (h : step s = .next t) (c : Channel) :
    (s.phase = .rstd → t.out c = if (portMap c).1 = .pd then true else s.out c) ∧
    (s.phase = .rstb → t.out c = if (portMap c).1 = .pb then true else s.out c) := by
  rw [out_step he h]
  refine ⟨fun hp => ?_, fun hp => ?_⟩ <;> simp only [State.lineAfter, hp] <;> exact out_portSetAll hwf _ c

/-- The engine's step keeps the waveform: the second reset of a cycle leaves all lines high, and from there every
compare keeps it. -/
theorem step_keeps_waveform {s t : State} (hwf : s.cfg.wf = true) (hl : s.positionLegal = true) (he : s.engineTurn)
    (hw : s.Waveform) (h : step s = .next t) : t.Waveform := by
  have hcfg := (step_keeps h).1
  have hpos := step_positionAfter he h
  obtain ⟨-, -, hstart⟩ := (positionLegal_iff s).1 hl
  have hreset := out_after_reset hwf he h
  unfold State.positionAfter at hpos
  cases hp : s.phase with
  | service =>
    rw [hp] at hpos
    exact waveform_of_firstReset (hpos.1.trans (by rw [hcfg]))
  | rstd =>
    obtain ⟨hx, hi⟩ := hstart (by simp [hp])
    have hraised (c : Channel) := (hreset c).1 hp
    simp only [hp, phaseAfterRstd] at hpos
    obtain ⟨htp, -, htx, hti⟩ := hpos
    cases ho : s.cfg.prstOrder with
    | dThenB =>
      simp only [ho] at htp
      simpa only [State.Waveform, htp] using fun _ c hc => (hraised c).trans (if_pos hc)
    | bThenD =>
      simp only [ho] at htp
      simp only [State.Waveform, hp] at hw
      exact waveform_of_second_reset htp (htx.trans hx) (hti.trans hi) hraised
        fun c hc => hw ho c (PortSel.eq_pb_of_ne hc)
  | rstb =>
    obtain ⟨hx, hi⟩ := hstart (by simp [hp])
    have hraised (c : Channel) := (hreset c).2 hp
    simp only [hp, phaseAfterRstb] at hpos
    obtain ⟨htp, -, htx, hti⟩ := hpos
    cases ho : s.cfg.prstOrder with
    | bThenD =>
      simp only [ho] at htp
      simpa only [State.Waveform, htp] using fun _ c hc => (hraised c).trans (if_pos hc)
    | dThenB =>
      simp only [ho] at htp
      simp only [State.Waveform, hp] at hw
      exact waveform_of_second_reset htp (htx.trans hx) (hti.trans hi) hraised
        fun c hc => hw ho c (PortSel.eq_pd_of_ne hc)
  | cmp =>
    rw [hp] at hpos
    rcases advance_phase s s.i with ha | ha | ha
    · exact waveform_of_compare he hp h (hpos.1.trans (ha.trans hp)) hw
    · exact waveform_of_firstReset (hpos.1.trans (ha.trans (by rw [hcfg])))
    · exact waveform_of_service (hpos.1.trans ha)

/-- Settles O54: the invariant of every step, and the waveform that the engine's step keeps; under `service_only` with
no word presented every step is the engine's. -/
theorem linesFollowDutyValues : Obligations.LinesFollowDutyValues := by
  intro s t hs hpres hwindow hw h
  have ha : s.engineAlone := ⟨hpres, .inl hwindow⟩
  exact ⟨stepKeepsTheInvariant s t hs h, (step_keeps_alone ha h).1, (step_keeps h).1 ▸ hwindow,
    step_keeps_waveform hs.cfgLegal hs.position (engineTurn_of_alone ha) hw h⟩

/-! ## The waveform of a whole cycle -/

theorem secondReset_of_standardEngine {cfg : Config} (h : cfg.standardEngine = true) : secondReset cfg = .rstb := by
  obtain ⟨-, -, -, ho⟩ := (standardEngine_iff cfg).1 h
  simp only [secondReset, ho]

/-- One step of a cycle, from its step `n + 1` on: if the line of channel `c` shows whether `n` is below the edge of
its duty value, it shows the same of `n + 1` after the step. -/
theorem cycle_line_step {t u : State} (hstd : t.cfg.standardEngine = true) (he : t.engineTurn)
    (hl : t.positionLegal = true) (h : step t = .next u) {z n : Nat} (hn : n + 1 < 3074)
    (ht : t.iterStep = 1 + 3074 * z + (n + 1)) (c : Channel)
    (hout : c.num < 8 ∨ 1 ≤ n → t.out c = decide (n < 12 * (dutyRead t c).toNat + c.num)) :
    u.out c = decide (n + 1 < 12 * (dutyRead t c).toNat + c.num) := by
  have h2 := c.num_ge
  have h14 := c.num_lt
  rcases iterStep_cases hl with ⟨-, -, -, -, hpos⟩ | ⟨-, -, -, hpos⟩ | ⟨hphase, -, -, hpos⟩ | ⟨hphase, hpos⟩
  · omega
  · omega
  · -- the second reset raises the lines of `PB`; those of `PD` are high already
    have hn0 : n = 0 := by omega
    rw [secondReset_of_standardEngine hstd] at hphase
    rw [(out_after_reset (wf_of_standardEngine hstd) he h c).2 hphase, decide_eq_true (by omega)]
    split
    · rfl
    · next hc =>
      rw [portMap_pb_iff] at hc
      rw [hout (.inl (by omega)), decide_eq_true (by omega)]
  · -- the compare of step `n + 1` is that of channel `t.i` at level `t.x`
    have hx := t.x.isLt
    have hi2 := t.i.num_ge
    have hi14 := t.i.num_lt
    have hstep : n + 1 = 12 * t.x.toNat + t.i.num := by omega
    have hi : t.i = c ↔ t.i.num = c.num := ⟨fun h => by rw [h], Channel.num_inj⟩
    obtain ⟨-, hline, -⟩ := compare_step he hphase h c
    rw [hline, hout (.inr (by omega)), Bool.eq_iff_iff]
    simp only [Bool.and_eq_true, Bool.not_eq_true', decide_eq_true_iff, decide_eq_false_iff_not, hi]
    omega

/-- Settles O55: the first reset raises the lines of `PD`, and every later step of the cycle is `cycle_line_step`. -/
theorem cycleWaveform : Obligations.CycleWaveform := by
  intro s hstd ha hl hp n
  have hn0 : s.iterStep = 1 + 3074 * s.z := iterStep_of_firstReset (hp.trans (firstReset_of_standardEngine hstd).symm)
  obtain ⟨hK, -⟩ := (positionLegal_iff s).1 hl
  have hL : iterLength s.cfg = 1 + 3074 * s.cfg.K := rfl
  induction n with
  | zero =>
    intro _
    obtain ⟨t, ht, hr⟩ := step_renders ha (by simp [hp])
    refine ⟨t, core_run_of_step ht 0, hr.duty, fun c hc => ?_⟩
    have h2 := c.num_ge
    have hc8 : c.num < 8 := by omega
    rw [(out_after_reset (wf_of_standardEngine hstd) (engineTurn_of_alone ha) ht c).1 hp,
      if_pos ((portMap_pd_iff c).2 hc8), decide_eq_true (by omega)]
  | succ n ih =>
    intro hn
    obtain ⟨t, hrun, hduty, hout⟩ := ih (by omega)
    obtain ⟨t', hrun', hr, htl, htn⟩ := run_renders hl ha (by omega) (n + 1) (by omega)
    rw [hrun] at hrun'
    obtain rfl := Host.Outcome.next.inj hrun'
    rw [hn0, Nat.mod_eq_of_lt (by omega)] at htn
    have hservice : t.phase ≠ .service := fun h => by rw [iterStep_of_service h] at htn; omega
    obtain ⟨u, hu, hru⟩ := step_renders hr.alone hservice
    refine ⟨u, by rw [core_run_succ_last, hrun]; exact hu, hru.duty.trans hduty, fun c _ => ?_⟩
    rw [← dutyRead_congr hduty c]
    exact cycle_line_step (hr.cfg ▸ hstd) (engineTurn_of_alone hr.alone) htl hu hn htn c
      fun hc => (hout c hc).trans (by rw [dutyRead_congr hduty c])

end Sys2Proof.Machine
end
